-- ==== Sys2Proof/Word.lean ====
section
/-! DEFINITION. The widths the spec gives values (spec/20_memory.md R48) and the text type of the host's side. -/

namespace Sys2Proof

/-- A byte is 8 bits (R10). -/
abbrev Byte := BitVec 8

/-- A register, an operand field or a header word: 16 bits (R20, R21, R70, R62). -/
abbrev Word := BitVec 16

/-- The port command word `cmd[39:0]` (R70). -/
abbrev CommandWord := BitVec 40

/-- The 48 bits of `rsp_data` and of the header value `hdr48` (R78, R69). -/
abbrev Data48 := BitVec 48

/-- Text of the host's side: the Unicode scalar values of a string, first one first (log entry 10). -/
abbrev Text := List Char

end Sys2Proof
end

