-- ==== Sys2Proof/Config.lean ====
section
/-! DEFINITION. The parameters of the block (spec/00_scope.md R8), each under the spec's name.
The two OPEN rows of R8 have no value here: `LATENCY` is no part of a model without time (R210; log entry 4), `CATALOG` and the
host's parsing details are the arguments `Machine.HostParams` of the host's side (log entries 12 to 17).
The literals are unaudited against the original repository (D30; log entry 9). -/

namespace Sys2Proof.Config

/-- The two orders in which a multi-byte constant can be emitted; R8's `SYNC_ORDER` and `TRAILER_ORDER` take one of them. -/
inductive ByteOrder where
  | mostSignificantFirst
  | leastSignificantFirst
  deriving DecidableEq, Repr

/-- The usual parameter set of a 16-bit CRC (G1 of spec/93_implementation_defined.md). -/
structure CrcParams where
  poly : Word
  init : Word
  refIn : Bool
  refOut : Bool
  xorOut : Word
  deriving DecidableEq, Repr

/-- `CRC_POLY`. -/
def crcPoly : Word := 0x1021#16
/-- `CRC_INIT`. -/
def crcInit : Word := 0xFFFF#16
/-- `CRC_REFIN`. -/
def crcRefIn : Bool := false
/-- `CRC_REFOUT`. -/
def crcRefOut : Bool := false
/-- `CRC_XOROUT`. -/
def crcXorOut : Word := 0x0000#16
/-- The block's CRC as a parameter set: CRC-16/CCITT-FALSE (R1 (a)). -/
def crcParams : CrcParams := ⟨crcPoly, crcInit, crcRefIn, crcRefOut, crcXorOut⟩
/-- `SYNC`. -/
def sync : BitVec 32 := 0x352EF853#32
/-- `SYNC_ORDER` (decision D12). -/
def syncOrder : ByteOrder := .mostSignificantFirst
/-- `TRAILER_ORDER` (decision D13). -/
def trailerOrder : ByteOrder := .mostSignificantFirst
/-- `HDR_LEN`, in bytes. -/
def hdrLen : Nat := 6
/-- `TRAILER_LEN`, in bytes. -/
def trailerLen : Nat := 2
/-- `CMD_BASE`. -/
def cmdBase : Word := 0x2000#16
/-- `SEQ_WORD`. -/
def seqWord : Word := 0xC000#16
/-- `LEN_BIAS`: the length word is the data length plus this (R68, conflict C1). -/
def lenBias : Nat := 1
/-- `CODE_MAX`. -/
def codeMax : Nat := 255
/-- `MAX_DATA_LEN`: the largest length whose biased value still fits the 2-byte length word (R68, decision D14). -/
def maxDataLen : Nat := 2 ^ 16 - 1 - lenBias
/-- The host's sentinel data field for a command with no encoder of its own (R97). -/
def sentinel : BitVec 32 := 0xDEADBEEF#32

end Sys2Proof.Config
end

