-- ==== Sys2Proof/Machine/Operands.lean ====
section
/-! DEFINITION. The fields of the port command word and every operand form (spec/30_encoding.md R70 to R72), the range checks on
operands (spec/60_exceptions.md R170, R171) and byte serialisation (spec/00_scope.md R11). -/

namespace Sys2Proof.Machine

/-- `op = cmd[39:32]` (R70). -/
def opField (w : CommandWord) : Byte := w.extractLsb' 32 8

/-- `a = cmd[31:16]` (R70); the operand `code` of format CL (R72). -/
def aField (w : CommandWord) : Word := w.extractLsb' 16 16

/-- `b = cmd[15:0]` (R70); the operand `data_len` of format CL (R72). -/
def bField (w : CommandWord) : Word := w.extractLsb' 0 16

/-- `byte = b[7:0]`, the operand of format B (R72). -/
def byteField (w : CommandWord) : Byte := w.extractLsb' 0 8

/-- `b[15:8]`, reserved in format B (R71). -/
def bHighField (w : CommandWord) : Byte := w.extractLsb' 8 8

/-- `op ‖ a ‖ b` (R70, R81). -/
def packWord (op : Byte) (a b : Word) : CommandWord := op ++ a ++ b

/-- The operand word of format B: the byte in `b[7:0]`, `b[15:8]` zero (R71). -/
def byteOperand (x : Byte) : Word := x.setWidth 16

/-- `code > 0x00FF`, the condition of `InvalidCode` (R110, R170). -/
def codeTooBig (code : Word) : Bool := decide (Config.codeMax < code.toNat)

/-- `data_len + 1` does not fit 16 bits, the condition of `LengthOverflow` (R110, R171). -/
def lengthTooBig (dataLen : Word) : Bool := decide (Config.maxDataLen < dataLen.toNat)

/-- `be(w, n)`: byte `i` is `w[8(n-i)-1 : 8(n-1-i)]`, most significant byte first (R11). -/
def be {k : Nat} (w : BitVec k) (n : Nat) : List Byte :=
  (List.range n).map fun i => w.extractLsb' (8 * (n - 1 - i)) 8

/-- The `n` bytes of `w` in the order a parameter names (`SYNC_ORDER`, `TRAILER_ORDER`, R8). -/
def serialize {k : Nat} (order : Config.ByteOrder) (w : BitVec k) (n : Nat) : List Byte :=
  match order with
  | .mostSignificantFirst => be w n
  | .leastSignificantFirst => (be w n).reverse

end Sys2Proof.Machine
end

