-- ==== Sys2Proof/Syntax.lean ====
section
/-! DEFINITION. The seven commands of the opcode map (spec/30_encoding.md R74, spec/opcode_table.json), one constructor per row. -/

namespace Sys2Proof

/-- A decoded command. Operands are the fields R71 and R72 give its format, unsigned and unscaled. -/
inductive Instr where
  /-- `NOP` (R160). -/
  | nop
  /-- `CRCINIT` (R125). -/
  | crcinit
  /-- `CRCBYTE byte` (R126). -/
  | crcbyte (byte : Byte)
  /-- `CRCRD` (R127). -/
  | crcrd
  /-- `HDRBLD code, data_len` (R110). -/
  | hdrbld (code dataLen : Word)
  /-- `PKTSTART code, data_len` (R140). -/
  | pktstart (code dataLen : Word)
  /-- `PKTDATA byte` (R141). -/
  | pktdata (byte : Byte)
  deriving DecidableEq, Repr

end Sys2Proof
end

