-- ==== Sys2Proof/Machine/State.lean ====
section
/-! DEFINITION. The block's state (spec/10_state.md R20 to R33), the responses it gives (spec/30_encoding.md R78, R79), the host's
moves (spec/70_reset_and_hazards.md R214) and the reset state (R32). -/

namespace Sys2Proof.Machine

/-- The kinds of answer a command gets (R79); their 4-bit codes are `statusCode`. -/
inductive Status where
  /-- The command was executed. -/
  | ok
  /-- `code > 255` in `HDRBLD` or `PKTSTART` (R170). -/
  | invalidCode
  /-- `data_len = 65535` in `HDRBLD` or `PKTSTART` (R171). -/
  | lengthOverflow
  /-- The command is not allowed in the current frame condition (R174). -/
  | protocolError
  /-- The word matches no row of the opcode map (R173). -/
  | illegalOp
  deriving DecidableEq, Repr

/-- A response: `rsp_status` by its name and `rsp_data[47:0]` (R78). -/
structure Response where
  status : Status
  data : Data48
  deriving DecidableEq, Repr

/-- One move of the environment (R214), seen at transaction level (R44, decision D1). -/
inductive HostMove where
  /-- A port command word is accepted: a cycle with `cmd_valid` and `cmd_ready` both 1 (R41). -/
  | command (w : CommandWord)
  /-- The TX sink is ready for one transfer: `tx_ready` is 1 (R42). -/
  | takeTx
  /-- The response sink is ready for one transfer: `rsp_ready` is 1 (R43). -/
  | takeResponse
  /-- `rst` is 1 at a rising edge of `clk` (R200). -/
  | reset
  deriving DecidableEq, Repr

/-- The state. All lists hold their oldest entry first. -/
structure State where
  /-- The CRC accumulator (R20). -/
  crc : Word
  /-- The number of data bytes the open frame still owes (R21). -/
  remaining : Word
  /-- The TX stream: every byte emitted since reset (R23). -/
  txStream : List Byte
  /-- The response stream: every response since reset (R24). -/
  rspStream : List Response
  /-- Bytes emitted and not yet across the TX port (R31, R42). -/
  txQueue : List Byte
  /-- Responses not yet across the response port (R31, R43). -/
  rspQueue : List Response
  /-- The model's own: every byte that crossed the TX port since power-on, which no reset recalls (R201). -/
  txSent : List Byte
  /-- The model's own: every response that crossed the response port since power-on. -/
  rspTaken : List Response
  /-- The model's own: the host's moves not yet made (R41; log entry 1). -/
  pending : List HostMove
  deriving DecidableEq, Repr

/-- Why the machine has no step. -/
inductive Fault where
  /-- Raised by `step` when the host has no move left and no frame is open: the run is finished (R212). Safe: the spec gives
  the block no step of its own there (R13, R14 (1); log entry 2). -/
  | awaitingCommand
  /-- Raised by `step` when the host has no move left and a frame is open: the stuck state (R207, U15). Safe: the spec gives
  the block no step that leaves it (log entry 2). -/
  | stuckInFrame
  deriving DecidableEq, Repr

/-- Why an instruction has no meaning. -/
inductive Refusal where
  /-- Raised by an arm of `exec` whose instruction has no meaning yet; no arm is left that does. Safe: the machine stops. -/
  | notModelled (mnemonic : String)
  deriving DecidableEq, Repr

/-- What one step or one meaning answers. -/
abbrev Result := Host.Outcome State Fault Refusal

/-- The machine right after reset (R32, R200), with nothing sent before and no move of the host pending (log entry 3). -/
def State.reset : State where
  crc := 0xFFFF#16
  remaining := 0x0000#16
  txStream := []
  rspStream := []
  txQueue := []
  rspQueue := []
  txSent := []
  rspTaken := []
  pending := []

end Sys2Proof.Machine
end

