-- ==== Sys2Proof/Machine/Flags.lean ====
section
/-! DEFINITION. The block has no flags (spec/10_state.md R28). What takes their place: the frame condition `in_frame` (R22), the
status codes of responses (spec/30_encoding.md R79) and the table of commands allowed in each condition (spec/60_exceptions.md R174). -/

namespace Sys2Proof.Machine

/-- `in_frame` is `remaining != 0` (R22). -/
def inFrame (s : State) : Bool := s.remaining != 0#16

/-- `rsp_status[3:0]` of each status (R79). -/
def statusCode (st : Status) : BitVec 4 :=
  match st with
  | .ok => 0x0#4
  | .invalidCode => 0x1#4
  | .lengthOverflow => 0x2#4
  | .protocolError => 0x3#4
  | .illegalOp => 0x4#4

/-- The table of R174 and R142: may the command execute when `in_frame` is `frameOpen`? -/
def allowedIn (i : Instr) (frameOpen : Bool) : Bool :=
  match i with
  | .nop => true
  | .crcinit => !frameOpen
  | .crcbyte _ => !frameOpen
  | .crcrd => true
  | .hdrbld _ _ => true
  | .pktstart _ _ => !frameOpen
  | .pktdata _ => frameOpen

end Sys2Proof.Machine
end

