-- ==== Sys2Proof/Machine/Ops.lean ====
section
/-! DEFINITION. The operations every command is made of (spec/00_scope.md R12): writing a register, `emit`, `respond`, and
`raise`, which is the block's whole way of taking an error (spec/60_exceptions.md R176). There is nothing to return from (R178). -/

namespace Sys2Proof.Machine

/-- `crc <- v` (R12). -/
def setCrc (v : Word) (s : State) : State := { s with crc := v }

/-- `remaining <- v` (R12). -/
def setRemaining (v : Word) (s : State) : State := { s with remaining := v }

/-- `emit(x)`: the bytes join the TX stream, in order, and wait at the TX port (R12, R23, R31, R42). -/
def emit (bytes : List Byte) (s : State) : State :=
  { s with txStream := s.txStream ++ bytes, txQueue := s.txQueue ++ bytes }

/-- `respond(st, d)`: the command's one response joins the response stream and waits at the response port (R12, R24, R43, R78). -/
def respond (st : Status) (d : Data48) (s : State) : State :=
  { s with rspStream := s.rspStream ++ [⟨st, d⟩], rspQueue := s.rspQueue ++ [⟨st, d⟩] }

/-- `raise <Error>`: no register is written, no byte is emitted, and the response is the error with data 0; the block goes on
(R12, R176). -/
def raiseError (e : Status) (s : State) : Result := .next (respond e 0#48 s)

end Sys2Proof.Machine
end

