-- ==== Sys2Proof/Machine/Checksum.lean ====
section
/-! DEFINITION. The CRC family: `CRCINIT`, `CRCBYTE`, `CRCRD` (spec/42_crc.md R125 to R127). -/

namespace Sys2Proof.Machine

/-- `CRCINIT` (R125). -/
def execCrcinit (s : State) : Result :=
  if inFrame s then raiseError .protocolError s
  else .next (respond .ok 0#48 (setCrc Config.crcInit s))

/-- `CRCBYTE byte` (R126). -/
def execCrcbyte (byte : Byte) (s : State) : Result :=
  if inFrame s then raiseError .protocolError s
  else .next (respond .ok 0#48 (setCrc (crcByte s.crc byte) s))

/-- `CRCRD` (R127): `respond(OK, zext_48(crc))`. -/
def execCrcrd (s : State) : Result := .next (respond .ok (s.crc.setWidth 48) s)

end Sys2Proof.Machine
end

