-- ==== Sys2Proof/Machine/Header.lean ====
section
/-! DEFINITION. The header function (spec/30_encoding.md R62, R65, R67 to R69) and the header family, `HDRBLD` (spec/41_header.md R110). -/

namespace Sys2Proof.Machine

/-- `command_word = 0x2000 | code` (R65). -/
def headerCommandWord (code : Word) : Word := Config.cmdBase ||| code

/-- `length_word = data_len + 1` (R68). -/
def headerLengthWord (dataLen : Word) : Word := BitVec.ofNat 16 (dataLen.toNat + Config.lenBias)

/-- `hdr48(code, n)` (R69). The spec defines it for `code <= 255` and `n <= 65534`; the commands check the ranges before they
evaluate it (log entry 8). -/
def hdr48 (code dataLen : Word) : Data48 :=
  headerCommandWord code ++ Config.seqWord ++ headerLengthWord dataLen

/-- The 6 header bytes `be(hdr48(code, n), 6)` (R62, R69). -/
def headerBytes (code dataLen : Word) : List Byte := be (hdr48 code dataLen) Config.hdrLen

/-- `HDRBLD code, data_len` (R110). -/
def execHdrbld (code dataLen : Word) (s : State) : Result :=
  if codeTooBig code then raiseError .invalidCode s
  else if lengthTooBig dataLen then raiseError .lengthOverflow s
  else .next (respond .ok (hdr48 code dataLen) s)

end Sys2Proof.Machine
end

