-- ==== Sys2Proof/Machine/Misc.lean ====
section
/-! DEFINITION. The miscellaneous family: `NOP` (spec/44_misc.md R160). -/

namespace Sys2Proof.Machine

/-- `NOP` (R160). -/
def execNop (s : State) : Result := .next (respond .ok 0#48 s)

end Sys2Proof.Machine
end

