-- ==== Sys2Proof/Machine/Packet.lean ====
section
/-! DEFINITION. The packet family: `PKTSTART`, `PKTDATA` (spec/43_packet.md R140, R141), and the packet as a byte string
(spec/30_encoding.md R60, R61, R63). -/

namespace Sys2Proof.Machine

/-- The sync marker's bytes in `SYNC_ORDER` (R61). -/
def syncBytes : List Byte := serialize Config.syncOrder Config.sync 4

/-- The trailer's bytes in `TRAILER_ORDER` (R63). -/
def trailerBytes (k : Word) : List Byte := serialize Config.trailerOrder k Config.trailerLen

/-- The trailer if this was the frame's last byte, else nothing (R140, R141). -/
def trailerIf (last : Bool) (k : Word) : List Byte := if last then trailerBytes k else []

/-- `PKTSTART code, data_len` (R140). -/
def execPktstart (code dataLen : Word) (s : State) : Result :=
  if inFrame s then raiseError .protocolError s
  else if codeTooBig code then raiseError .invalidCode s
  else if lengthTooBig dataLen then raiseError .lengthOverflow s
  else
    let h := headerBytes code dataLen
    let k := crcBytes Config.crcInit h
    .next (respond .ok 0#48 (setRemaining dataLen (setCrc k
      (emit (syncBytes ++ h ++ trailerIf (dataLen == 0#16) k) s))))

/-- `PKTDATA byte` (R141). -/
def execPktdata (byte : Byte) (s : State) : Result :=
  if inFrame s then
    let k := crcByte s.crc byte
    .next (respond .ok 0#48 (setRemaining (s.remaining - 1#16) (setCrc k
      (emit ([byte] ++ trailerIf (s.remaining == 1#16) k) s))))
  else raiseError .protocolError s

/-- The packet `sync ‖ header ‖ data ‖ checksum` for a code and a data field (R60, R144). -/
def packetBytes (code : Word) (data : List Byte) : List Byte :=
  let h := headerBytes code (BitVec.ofNat 16 data.length)
  syncBytes ++ h ++ data ++ trailerBytes (checksum (h ++ data))

end Sys2Proof.Machine
end

