-- ==== Sys2Proof/Machine/Dispatch.lean ====
section
/-! DEFINITION. The meaning of each command, one arm per constructor of `Instr`. -/

namespace Sys2Proof.Machine

def exec (i : Instr) (s : State) : Host.Outcome State Fault Refusal :=
  match i with
  | .nop => Sys2Proof.Machine.execNop s
  | .crcinit => Sys2Proof.Machine.execCrcinit s
  | .crcbyte byte => Sys2Proof.Machine.execCrcbyte byte s
  | .crcrd => Sys2Proof.Machine.execCrcrd s
  | .hdrbld code dataLen => Sys2Proof.Machine.execHdrbld code dataLen s
  | .pktstart code dataLen => Sys2Proof.Machine.execPktstart code dataLen s
  | .pktdata byte => Sys2Proof.Machine.execPktdata byte s

end Sys2Proof.Machine
end

