-- ==== Sys2Proof/Machine/HostTypes.lean ====
section
/-! DEFINITION. The data types of the host's side (spec/40_host_software.md R90, R91, R98, R99, R102, R103, R105). None of them is part of the block's state. -/

namespace Sys2Proof.Machine

/-- The type a field descriptor may carry; it never influences the bytes produced (R91). -/
inductive FieldType where
  | uint8
  | uint16
  | uint32
  deriving DecidableEq, Repr

/-- A Field Descriptor; `none` is the source's "untyped" (R91). -/
structure FieldDescriptor where
  name : Text
  type : Option FieldType
  deriving DecidableEq, Repr

/-- A Command Definition `(code: byte, name: string, fields)` (R90). -/
structure CommandDefinition where
  code : Byte
  name : Text
  fields : List FieldDescriptor
  deriving DecidableEq, Repr

/-- The Command Catalog, the open parameter `CATALOG` of R8, whose contents the spec leaves open (R90, R108). -/
abbrev Catalog := List CommandDefinition

/-- The pairs of code and name the source reveals (R99). -/
def revealedCommands : List (Byte × Text) :=
  [(0x42#8, "Delete File".toList), (0xFE#8, "List Files".toList), (0x16#8, "Request File".toList)]

/-- The one command known to exist whose code is not given (R99). -/
def codelessCommand : Text := "Unzip File".toList

/-- The mapping from field name to string (R92); the first pair with a name is the one that counts. -/
abbrev FieldValues := List (Text × Text)

/-- The format a field is expected in, which `InvalidField` names (R98), with the bytes its value or its length may take
(R93 to R96). -/
inductive FieldFormat where
  /-- A hexadecimal number of at most `bytes` bytes. -/
  | hex (bytes : Nat)
  /-- An integer of at most `bytes` bytes. -/
  | integer (bytes : Nat)
  /-- A text whose number of UTF-8 bytes takes at most `bytes` bytes. -/
  | text (bytes : Nat)
  deriving DecidableEq, Repr

/-- The errors of the whole `assemble`: the host's three kinds (R98) and the block's four (R79), seven in all (R177). -/
inductive AssembleError where
  /-- Raised by the catalog lookup when the code is not present. -/
  | unknownCommand
  /-- Raised by the field encoder when a required key is absent; names the field. -/
  | missingField (name : Text)
  /-- Raised by the field encoder when a value does not parse or does not fit; names the field and the expected format. -/
  | invalidField (name : Text) (expected : FieldFormat)
  /-- The block's `InvalidCode` (R170), propagated unchanged. -/
  | invalidCode
  /-- The block's `LengthOverflow` (R171), propagated unchanged. -/
  | lengthOverflow
  /-- The block's `ProtocolError` (R174), propagated unchanged. -/
  | protocolError
  /-- The block's `IllegalOp` (R173), propagated unchanged. -/
  | illegalOp
  deriving DecidableEq, Repr

/-- The seven error kinds (R177), as the boundary distinguishes them (R105). -/
inductive ErrorKind where
  | unknownCommand
  | missingField
  | invalidField
  | invalidCode
  | lengthOverflow
  | protocolError
  | illegalOp
  deriving DecidableEq, Repr

/-- What the spec leaves open on the host's side (R8 `CATALOG`, D26, D29). The functions of Machine/HostSide.lean take it as an
argument, so whatever is said of them is said for every choice of it. -/
structure HostParams where
  /-- `CATALOG` (R90); what the spec reveals of it (R99) is asked by `catalogWellFormed`. -/
  catalog : Catalog
  /-- DESIGN CHOICE (log entry 12): how a Request File integer is read is open (N13), as a function of its text. -/
  parseInteger : Text → Option Int
  /-- DESIGN CHOICE (log entry 14): which of several applicable field errors is reported is open (N27), as an index into their
  list that may depend on the command, the field values and the errors themselves. -/
  reportedError : CommandDefinition → FieldValues → List AssembleError → Nat
  /-- DESIGN CHOICE (log entry 16): which error a data field of more than 65535 bytes gives is open (R101, N5), as a function of
  the code and the field values. -/
  overlongError : Int → FieldValues → AssembleError
  /-- How an `apid` that is not `0x` and two hexadecimal digits is read (N16; log entry 17). -/
  parseApidOther : Text → Option Nat
  /-- The error kind a malformed `apid` raises (N16; log entry 17). -/
  malformedApid : Text → AssembleError
  /-- The exact text of `hex` (N16; log entry 17). -/
  renderHex : List Nat → Text
  /-- The text of an error message, beside what it must name (R105, N16; log entry 17). -/
  errorMessage : AssembleError → Text

/-- An inbound request (R102). -/
structure Request where
  apid : Text
  fields : FieldValues
  deriving DecidableEq, Repr

/-- An outbound success result (R103): the rendering and the bytes as integers 0 to 255. -/
structure Reply where
  hex : Text
  bytes : List Nat
  deriving DecidableEq, Repr

/-- An error message: the field and the expected format it names (R98), and its text, which is the host's to write (R105). -/
structure ErrorMessage where
  field : Option Text
  expected : Option FieldFormat
  text : Text
  deriving DecidableEq, Repr

/-- A structured error (R105): its kind and a message. -/
structure ErrorReply where
  kind : ErrorKind
  message : ErrorMessage
  deriving DecidableEq, Repr

end Sys2Proof.Machine
end

