-- ==== Sys2Proof/WellFormed.lean ====
section
/-! DEFINITION. What is well formed on the command port: a word (spec/30_encoding.md R71, R75), the operands of a command
(R69), a host's command sequence (spec/70_reset_and_hazards.md R204, R205, R214), and the host's catalog (R90, R99).
Every term of `Instr` is a legal command: the widths of its fields are their only bounds (R72, R75 (c)). -/

namespace Sys2Proof

open Machine

/-- The three formats (R71). -/
inductive Format where
  | z
  | b
  | cl
  deriving DecidableEq, Repr

/-- The format of a defined opcode (R74); none for `0x07` to `0xFF` (R75 (a)). -/
def formatOf (op : Byte) : Option Format :=
  match op.toNat with
  | 0 => some .z
  | 1 => some .z
  | 2 => some .b
  | 3 => some .z
  | 4 => some .cl
  | 5 => some .cl
  | 6 => some .b
  | _ => none

/-- Check 1: the opcode is one of the map's (R75 (a)). -/
def opcodeDefined (w : CommandWord) : Bool := (formatOf (opField w)).isSome

/-- Check 2: every bit that the opcode's format reserves is 0 (R71, R75 (b)). -/
def reservedBitsZero (w : CommandWord) : Bool :=
  match formatOf (opField w) with
  | some .z => aField w == 0#16 && bField w == 0#16
  | some .b => aField w == 0#16 && bHighField w == 0#8
  | some .cl => true
  | none => true

/-- A legal port command word (R75). -/
def wordWellFormed (w : CommandWord) : Bool := opcodeDefined w && reservedBitsZero w

/-- Checks 3 and 4: the code and the length of a header are in the domain of `hdr48` (R69). A command that fails one is still a
legal command; it is answered with an error (R75 (c)). -/
def Instr.operandsInRange (i : Instr) : Bool :=
  match i with
  | .nop => true
  | .crcinit => true
  | .crcbyte _ => true
  | .crcrd => true
  | .hdrbld code dataLen => !codeTooBig code && !lengthTooBig dataLen
  | .pktstart code dataLen => !codeTooBig code && !lengthTooBig dataLen
  | .pktdata _ => true

/-- The commands that write no register and emit nothing, and may stand anywhere, inside a frame too (R144, R174). -/
def Instr.passive (i : Instr) : Bool :=
  match i with
  | .nop => true
  | .crcinit => false
  | .crcbyte _ => false
  | .crcrd => true
  | .hdrbld _ _ => true
  | .pktstart _ _ => false
  | .pktdata _ => false

/-- Check 5: a command sequence keeps the host's duties of R204 and R205 (no packet or stand-alone checksum inside an open frame,
exactly the announced number of data bytes) and its operands are in range; `owed` is how many data bytes the open frame still
owes before the sequence. -/
def hostDisciplined (owed : Nat) : List Instr → Bool
  | [] => owed == 0
  | i :: rest =>
    i.operandsInRange &&
    match i with
    | .nop => hostDisciplined owed rest
    | .crcinit => owed == 0 && hostDisciplined 0 rest
    | .crcbyte _ => owed == 0 && hostDisciplined 0 rest
    | .crcrd => hostDisciplined owed rest
    | .hdrbld _ _ => hostDisciplined owed rest
    | .pktstart _ dataLen => owed == 0 && hostDisciplined dataLen.toNat rest
    | .pktdata _ => owed != 0 && hostDisciplined (owed - 1) rest

/-- Check 6: a catalog maps a code to one definition (R90). -/
def catalogCodesDistinct (cat : Catalog) : Bool := decide ((cat.map (·.code)).Nodup)

/-- Check 7: a catalog holds what the source reveals of it, the three known pairs and an Unzip File under some code (R99). -/
def catalogHoldsRevealed (cat : Catalog) : Bool :=
  (revealedCommands.all fun k => cat.any fun d => d.code == k.1 && d.name == k.2) &&
    cat.any fun d => d.name == codelessCommand

/-- A catalog the spec allows (R90, R99). -/
def catalogWellFormed (cat : Catalog) : Bool := catalogCodesDistinct cat && catalogHoldsRevealed cat

end Sys2Proof
end

