-- ==== Sys2Proof/Decode.lean ====
section
/-! DEFINITION. The opcode map and the decoder (spec/30_encoding.md R73 to R75), total on every 40-bit word; then the encoder
(R70, R71, R74, R81). -/

namespace Sys2Proof

open Machine

/-- Why a word is no command (R75). -/
inductive DecodeError where
  /-- `op` is `0x07` to `0xFF` (R75 (a)). -/
  | undefinedOpcode (op : Byte)
  /-- The opcode is defined and a bit its format reserves is 1 (R75 (b)). -/
  | reservedBitSet (op : Byte)
  deriving DecidableEq, Repr

/-- One row of the opcode map (R74). -/
structure OpcodeRow where
  matchBits : CommandWord
  mask : CommandWord
  deriving DecidableEq, Repr

def rowNop : OpcodeRow := ⟨0x0000000000#40, 0xFFFFFFFFFF#40⟩
def rowCrcinit : OpcodeRow := ⟨0x0100000000#40, 0xFFFFFFFFFF#40⟩
def rowCrcbyte : OpcodeRow := ⟨0x0200000000#40, 0xFFFFFFFF00#40⟩
def rowCrcrd : OpcodeRow := ⟨0x0300000000#40, 0xFFFFFFFFFF#40⟩
def rowHdrbld : OpcodeRow := ⟨0x0400000000#40, 0xFF00000000#40⟩
def rowPktstart : OpcodeRow := ⟨0x0500000000#40, 0xFF00000000#40⟩
def rowPktdata : OpcodeRow := ⟨0x0600000000#40, 0xFFFFFFFF00#40⟩

/-- The opcode map, in the table's order (R74). -/
def opcodeMap : List OpcodeRow :=
  [rowNop, rowCrcinit, rowCrcbyte, rowCrcrd, rowHdrbld, rowPktstart, rowPktdata]

/-- A word is the command of a row iff `(cmd & mask) == match` (R73). -/
def OpcodeRow.matchesWord (r : OpcodeRow) (w : CommandWord) : Bool := w &&& r.mask == r.matchBits

/-- The decoder (R73): the one matching row's command with its operand fields, or why there is none. -/
def decode (w : CommandWord) : Except DecodeError Instr :=
  if rowNop.matchesWord w then .ok .nop
  else if rowCrcinit.matchesWord w then .ok .crcinit
  else if rowCrcbyte.matchesWord w then .ok (.crcbyte (byteField w))
  else if rowCrcrd.matchesWord w then .ok .crcrd
  else if rowHdrbld.matchesWord w then .ok (.hdrbld (aField w) (bField w))
  else if rowPktstart.matchesWord w then .ok (.pktstart (aField w) (bField w))
  else if rowPktdata.matchesWord w then .ok (.pktdata (byteField w))
  else if (opField w).toNat ≤ 6 then .error (.reservedBitSet (opField w))
  else .error (.undefinedOpcode (opField w))

/-- The opcode of a command (R74). -/
def opcodeOf (i : Instr) : Byte :=
  match i with
  | .nop => 0x00#8
  | .crcinit => 0x01#8
  | .crcbyte _ => 0x02#8
  | .crcrd => 0x03#8
  | .hdrbld _ _ => 0x04#8
  | .pktstart _ _ => 0x05#8
  | .pktdata _ => 0x06#8

/-- The encoder: `op ‖ a ‖ b` with the operands where R74 places them and every unused bit 0 (R81). -/
def encode (i : Instr) : CommandWord :=
  match i with
  | .nop => packWord (opcodeOf i) 0#16 0#16
  | .crcinit => packWord (opcodeOf i) 0#16 0#16
  | .crcbyte x => packWord (opcodeOf i) 0#16 (byteOperand x)
  | .crcrd => packWord (opcodeOf i) 0#16 0#16
  | .hdrbld code dataLen => packWord (opcodeOf i) code dataLen
  | .pktstart code dataLen => packWord (opcodeOf i) code dataLen
  | .pktdata x => packWord (opcodeOf i) 0#16 (byteOperand x)

/-- The word whose low `nbits` bits are those of `w`, every bit above them 0. -/
def tableWord (nbits w : Nat) : CommandWord := BitVec.ofNat 40 (w % 2 ^ nbits)

/-- The decoder on a word numbered as spec/opcode_table.json numbers it: the 40-bit command word is presented whole (R77), so
bit `k` of the table is `cmd[k]`; bits beyond `cmd[39]` make no command word. -/
def decodeTableWord (nbits w : Nat) : Option Instr :=
  if w % 2 ^ nbits < 2 ^ 40 then
    match decode (tableWord nbits w) with
    | .ok i => some i
    | .error _ => none
  else none

end Sys2Proof
end

