-- ==== Sys2Proof/Machine/Ports.lean ====
section
/-! DEFINITION. What happens at the ports besides an accepted command: a transfer at the TX port and at the response port
(spec/20_memory.md R42, R43), reset (spec/70_reset_and_hazards.md R200, R201), an illegal word (spec/60_exceptions.md R173), and
the values the block drives on its output ports (R44). -/

namespace Sys2Proof.Machine

/-- `tx_valid` (R42). -/
def txValid (s : State) : Bool := !s.txQueue.isEmpty

/-- `tx_byte[7:0]`; the spec gives it a value only while `tx_valid` is 1 (R42). -/
def txByte (s : State) : Option Byte := s.txQueue.head?

/-- `rsp_valid` (R43). -/
def rspValid (s : State) : Bool := !s.rspQueue.isEmpty

/-- `rsp_status[3:0]`, while `rsp_valid` is 1 (R43, R79). -/
def rspStatus (s : State) : Option (BitVec 4) := s.rspQueue.head?.map fun r => statusCode r.status

/-- `rsp_data[47:0]`, while `rsp_valid` is 1 (R43). -/
def rspData (s : State) : Option Data48 := s.rspQueue.head?.map (·.data)

/-- A cycle in which the TX sink is ready: the oldest waiting byte crosses; with `tx_valid` 0 nothing does (R42). -/
def takeTx (s : State) : State :=
  match s.txQueue with
  | [] => s
  | x :: rest => { s with txQueue := rest, txSent := s.txSent ++ [x] }

/-- A cycle in which the response sink is ready: the oldest waiting response crosses; with `rsp_valid` 0 nothing does (R43). -/
def takeResponse (s : State) : State :=
  match s.rspQueue with
  | [] => s
  | r :: rest => { s with rspQueue := rest, rspTaken := s.rspTaken ++ [r] }

/-- Reset (R200): registers and histories as after reset, whatever is in flight is discarded; what crossed a port stays
crossed (R201), and no command presented meanwhile is accepted, so the host's moves stay as they are. -/
def resetBlock (s : State) : State :=
  { State.reset with txSent := s.txSent, rspTaken := s.rspTaken, pending := s.pending }

/-- An accepted word that matches no row of the opcode map is answered `IllegalOp`, in every state alike (R173, R75). -/
def answerIllegal (s : State) : Result := raiseError .illegalOp s

end Sys2Proof.Machine
end

