-- ==== Sys2Proof/Machine/Fetch.lean ====
section
/-! DEFINITION. One move of the host (spec/00_scope.md R13, spec/20_memory.md R41 to R43): an accepted word is decoded and
executed, or answered as illegal; a port transfer; a reset. And the end of a run (spec/70_reset_and_hazards.md R207, R212). -/

namespace Sys2Proof.Machine

/-- One accepted port command word (R13, R73, R75): total, one response in every case. -/
def acceptWord (w : CommandWord) (s : State) : Result :=
  match decode w with
  | .ok i => exec i s
  | .error _ => answerIllegal s

/-- One move of the host (R214), the state being the one without that move. -/
def makeMove (m : HostMove) (s : State) : Result :=
  match m with
  | .command w => acceptWord w s
  | .takeTx => .next (takeTx s)
  | .takeResponse => .next (takeResponse s)
  | .reset => .next (resetBlock s)

/-- No move of the host is left: stuck inside a frame (R207), finished outside one (R212). -/
def noMove (s : State) : Result :=
  if inFrame s then .fault .stuckInFrame else .fault .awaitingCommand

/-- The host's next move, taken from `pending`. -/
def nextMove (s : State) : Result :=
  match s.pending with
  | [] => noMove s
  | m :: rest => makeMove m { s with pending := rest }

/-- The host presents one more word, before the moves it has pending. -/
def presentWord (w : CommandWord) (s : State) : State := { s with pending := .command w :: s.pending }

/-- Commands executed one after another, each on the state the one before it left (R46). -/
def execAll (is : List Instr) (s : State) : Result :=
  match is with
  | [] => .next s
  | i :: rest =>
    match exec i s with
    | .next t => execAll rest t
    | .fault r => .fault r
    | .refused r => .refused r

end Sys2Proof.Machine
end

