-- ==== Sys2Proof/Laws/Bytes.lean ====
section
/-! SUPPORT. The byte strings the block emits, and the checksum fold, each by its own small lemmas. -/

namespace Sys2Proof.Machine

@[simp] theorem be_length {k : Nat} (w : BitVec k) (n : Nat) : (be w n).length = n := by simp [be]

@[simp] theorem serialize_length {k : Nat} (o : Config.ByteOrder) (w : BitVec k) (n : Nat) :
    (serialize o w n).length = n := by
  cases o <;> simp [serialize]

theorem syncBytes_eq : syncBytes = [0x35#8, 0x2E#8, 0xF8#8, 0x53#8] := by decide

theorem trailerBytes_eq (k : Word) : trailerBytes k = [k.extractLsb' 8 8, k.extractLsb' 0 8] := rfl

theorem headerBytes_eq_be (code dataLen : Word) :
    headerBytes code dataLen =
      [(hdr48 code dataLen).extractLsb' 40 8, (hdr48 code dataLen).extractLsb' 32 8, (hdr48 code dataLen).extractLsb' 24 8,
        (hdr48 code dataLen).extractLsb' 16 8, (hdr48 code dataLen).extractLsb' 8 8, (hdr48 code dataLen).extractLsb' 0 8] := rfl

@[simp] theorem syncBytes_length : syncBytes.length = 4 := by simp [syncBytes]

@[simp] theorem trailerBytes_length (k : Word) : (trailerBytes k).length = 2 := by
  simp [trailerBytes, Config.trailerLen]

@[simp] theorem headerBytes_length (code dataLen : Word) : (headerBytes code dataLen).length = 6 := by
  simp [headerBytes, Config.hdrLen]

@[simp] theorem trailerIf_true (k : Word) : trailerIf true k = trailerBytes k := rfl

@[simp] theorem trailerIf_false (k : Word) : trailerIf false k = [] := rfl

@[simp] theorem crcBytes_nil (r : Word) : crcBytes r [] = r := rfl

@[simp] theorem crcBytes_cons (r : Word) (x : Byte) (s : List Byte) :
    crcBytes r (x :: s) = crcBytes (crcByte r x) s := rfl

end Sys2Proof.Machine
end

