-- ==== Sys2Proof/Laws/State.lean ====
section
/-! SUPPORT. One lemma per field for every operation that updates the state. -/

namespace Sys2Proof.Machine

@[simp] theorem setCrc_crc (v : Word) (s : State) : (setCrc v s).crc = v := rfl
@[simp] theorem setCrc_remaining (v : Word) (s : State) : (setCrc v s).remaining = s.remaining := rfl
@[simp] theorem setCrc_txStream (v : Word) (s : State) : (setCrc v s).txStream = s.txStream := rfl
@[simp] theorem setCrc_rspStream (v : Word) (s : State) : (setCrc v s).rspStream = s.rspStream := rfl
@[simp] theorem setCrc_txQueue (v : Word) (s : State) : (setCrc v s).txQueue = s.txQueue := rfl
@[simp] theorem setCrc_rspQueue (v : Word) (s : State) : (setCrc v s).rspQueue = s.rspQueue := rfl
@[simp] theorem setCrc_txSent (v : Word) (s : State) : (setCrc v s).txSent = s.txSent := rfl
@[simp] theorem setCrc_rspTaken (v : Word) (s : State) : (setCrc v s).rspTaken = s.rspTaken := rfl
@[simp] theorem setCrc_pending (v : Word) (s : State) : (setCrc v s).pending = s.pending := rfl

@[simp] theorem setRemaining_crc (v : Word) (s : State) : (setRemaining v s).crc = s.crc := rfl
@[simp] theorem setRemaining_remaining (v : Word) (s : State) : (setRemaining v s).remaining = v := rfl
@[simp] theorem setRemaining_txStream (v : Word) (s : State) : (setRemaining v s).txStream = s.txStream := rfl
@[simp] theorem setRemaining_rspStream (v : Word) (s : State) : (setRemaining v s).rspStream = s.rspStream := rfl
@[simp] theorem setRemaining_txQueue (v : Word) (s : State) : (setRemaining v s).txQueue = s.txQueue := rfl
@[simp] theorem setRemaining_rspQueue (v : Word) (s : State) : (setRemaining v s).rspQueue = s.rspQueue := rfl
@[simp] theorem setRemaining_txSent (v : Word) (s : State) : (setRemaining v s).txSent = s.txSent := rfl
@[simp] theorem setRemaining_rspTaken (v : Word) (s : State) : (setRemaining v s).rspTaken = s.rspTaken := rfl
@[simp] theorem setRemaining_pending (v : Word) (s : State) : (setRemaining v s).pending = s.pending := rfl

@[simp] theorem emit_crc (bytes : List Byte) (s : State) : (emit bytes s).crc = s.crc := rfl
@[simp] theorem emit_remaining (bytes : List Byte) (s : State) : (emit bytes s).remaining = s.remaining := rfl
@[simp] theorem emit_txStream (bytes : List Byte) (s : State) : (emit bytes s).txStream = s.txStream ++ bytes := rfl
@[simp] theorem emit_rspStream (bytes : List Byte) (s : State) : (emit bytes s).rspStream = s.rspStream := rfl
@[simp] theorem emit_txQueue (bytes : List Byte) (s : State) : (emit bytes s).txQueue = s.txQueue ++ bytes := rfl
@[simp] theorem emit_rspQueue (bytes : List Byte) (s : State) : (emit bytes s).rspQueue = s.rspQueue := rfl
@[simp] theorem emit_txSent (bytes : List Byte) (s : State) : (emit bytes s).txSent = s.txSent := rfl
@[simp] theorem emit_rspTaken (bytes : List Byte) (s : State) : (emit bytes s).rspTaken = s.rspTaken := rfl
@[simp] theorem emit_pending (bytes : List Byte) (s : State) : (emit bytes s).pending = s.pending := rfl

@[simp] theorem respond_crc (st : Status) (d : Data48) (s : State) : (respond st d s).crc = s.crc := rfl
@[simp] theorem respond_remaining (st : Status) (d : Data48) (s : State) : (respond st d s).remaining = s.remaining := rfl
@[simp] theorem respond_txStream (st : Status) (d : Data48) (s : State) : (respond st d s).txStream = s.txStream := rfl
@[simp] theorem respond_rspStream (st : Status) (d : Data48) (s : State) : (respond st d s).rspStream = s.rspStream ++ [⟨st, d⟩] := rfl
@[simp] theorem respond_txQueue (st : Status) (d : Data48) (s : State) : (respond st d s).txQueue = s.txQueue := rfl
@[simp] theorem respond_rspQueue (st : Status) (d : Data48) (s : State) : (respond st d s).rspQueue = s.rspQueue ++ [⟨st, d⟩] := rfl
@[simp] theorem respond_txSent (st : Status) (d : Data48) (s : State) : (respond st d s).txSent = s.txSent := rfl
@[simp] theorem respond_rspTaken (st : Status) (d : Data48) (s : State) : (respond st d s).rspTaken = s.rspTaken := rfl
@[simp] theorem respond_pending (st : Status) (d : Data48) (s : State) : (respond st d s).pending = s.pending := rfl

@[simp] theorem presentWord_crc (w : CommandWord) (s : State) : (presentWord w s).crc = s.crc := rfl
@[simp] theorem presentWord_remaining (w : CommandWord) (s : State) : (presentWord w s).remaining = s.remaining := rfl
@[simp] theorem presentWord_txStream (w : CommandWord) (s : State) : (presentWord w s).txStream = s.txStream := rfl
@[simp] theorem presentWord_rspStream (w : CommandWord) (s : State) : (presentWord w s).rspStream = s.rspStream := rfl
@[simp] theorem presentWord_txQueue (w : CommandWord) (s : State) : (presentWord w s).txQueue = s.txQueue := rfl
@[simp] theorem presentWord_rspQueue (w : CommandWord) (s : State) : (presentWord w s).rspQueue = s.rspQueue := rfl
@[simp] theorem presentWord_txSent (w : CommandWord) (s : State) : (presentWord w s).txSent = s.txSent := rfl
@[simp] theorem presentWord_rspTaken (w : CommandWord) (s : State) : (presentWord w s).rspTaken = s.rspTaken := rfl
@[simp] theorem presentWord_pending (w : CommandWord) (s : State) : (presentWord w s).pending = .command w :: s.pending := rfl

@[simp] theorem resetBlock_crc (s : State) : (resetBlock s).crc = 0xFFFF#16 := rfl
@[simp] theorem resetBlock_remaining (s : State) : (resetBlock s).remaining = 0x0000#16 := rfl
@[simp] theorem resetBlock_txStream (s : State) : (resetBlock s).txStream = [] := rfl
@[simp] theorem resetBlock_rspStream (s : State) : (resetBlock s).rspStream = [] := rfl
@[simp] theorem resetBlock_txQueue (s : State) : (resetBlock s).txQueue = [] := rfl
@[simp] theorem resetBlock_rspQueue (s : State) : (resetBlock s).rspQueue = [] := rfl
@[simp] theorem resetBlock_txSent (s : State) : (resetBlock s).txSent = s.txSent := rfl
@[simp] theorem resetBlock_rspTaken (s : State) : (resetBlock s).rspTaken = s.rspTaken := rfl
@[simp] theorem resetBlock_pending (s : State) : (resetBlock s).pending = s.pending := rfl

@[simp] theorem reset_crc : State.reset.crc = 0xFFFF#16 := rfl
@[simp] theorem reset_remaining : State.reset.remaining = 0x0000#16 := rfl
@[simp] theorem reset_txStream : State.reset.txStream = [] := rfl
@[simp] theorem reset_rspStream : State.reset.rspStream = [] := rfl
@[simp] theorem reset_txQueue : State.reset.txQueue = [] := rfl
@[simp] theorem reset_rspQueue : State.reset.rspQueue = [] := rfl
@[simp] theorem reset_txSent : State.reset.txSent = [] := rfl
@[simp] theorem reset_rspTaken : State.reset.rspTaken = [] := rfl
@[simp] theorem reset_pending : State.reset.pending = [] := rfl

/-- The frame condition looks at `remaining` alone (R22). -/
theorem inFrame_eq_true (s : State) : inFrame s = true ↔ s.remaining ≠ 0#16 := by simp [inFrame]

theorem inFrame_eq_false (s : State) : inFrame s = false ↔ s.remaining = 0#16 := by simp [inFrame]

end Sys2Proof.Machine
end

