-- ==== Sys2Proof/Machine/TextOps.lean ====
section
/-! DEFINITION. Reading numbers from text and writing text as bytes, for the assembler (spec/30_encoding.md R81) and the host's side
(spec/40_host_software.md R93 to R96, R102). -/

namespace Sys2Proof.Machine

/-- The value of a decimal digit. -/
def decDigit (c : Char) : Option Nat :=
  if 48 ≤ c.toNat ∧ c.toNat ≤ 57 then some (c.toNat - 48) else none

/-- The value of a hexadecimal digit, in either case. -/
def hexDigit (c : Char) : Option Nat :=
  if 48 ≤ c.toNat ∧ c.toNat ≤ 57 then some (c.toNat - 48)
  else if 65 ≤ c.toNat ∧ c.toNat ≤ 70 then some (c.toNat - 55)
  else if 97 ≤ c.toNat ∧ c.toNat ≤ 102 then some (c.toNat - 87)
  else none

/-- The number the digits go on to from `acc`, most significant first; none if a character is no digit. -/
def digitsFrom (base : Nat) (digit : Char → Option Nat) (acc : Nat) : Text → Option Nat
  | [] => some acc
  | c :: rest =>
    match digit c with
    | some v => digitsFrom base digit (base * acc + v) rest
    | none => none

/-- A number written with at least one digit. -/
def digitsValue (base : Nat) (digit : Char → Option Nat) (t : Text) : Option Nat :=
  match t with
  | [] => none
  | c :: rest => digitsFrom base digit 0 (c :: rest)

/-- `0x` and hexadecimal digits (R81). -/
def prefixedHex (t : Text) : Option Nat :=
  match t with
  | '0' :: 'x' :: rest => digitsValue 16 hexDigit rest
  | _ => none

/-- A text as a base-16 integer, none if it cannot be parsed as one (R92, R93). DESIGN CHOICE (log entry 11): the digits may stand
alone or after `0x` or `0X`, in either case, and no other character may stand in the text. -/
def hexNumber (t : Text) : Option Nat :=
  match t with
  | '0' :: 'x' :: rest => digitsValue 16 hexDigit rest
  | '0' :: 'X' :: rest => digitsValue 16 hexDigit rest
  | _ => digitsValue 16 hexDigit t

/-- The hexadecimal digit of a nibble, in capitals. -/
def nibbleChar (v : BitVec 4) : Char :=
  if v.toNat < 10 then Char.ofNat (48 + v.toNat) else Char.ofNat (55 + v.toNat)

/-- `0x` and the `n` low hexadecimal digits of `w`. -/
def hexText {k : Nat} (w : BitVec k) (n : Nat) : Text :=
  '0' :: 'x' :: (List.range n).map fun i => nibbleChar (w.extractLsb' (4 * (n - 1 - i)) 4)

/-- The UTF-8 bytes of one Unicode scalar value (R93; log entry 10). -/
def utf8Char (c : Char) : List Byte :=
  let n := c.toNat
  if n < 0x80 then [BitVec.ofNat 8 n]
  else if n < 0x800 then [BitVec.ofNat 8 (0xC0 + n / 64), BitVec.ofNat 8 (0x80 + n % 64)]
  else if n < 0x10000 then
    [BitVec.ofNat 8 (0xE0 + n / 4096), BitVec.ofNat 8 (0x80 + n / 64 % 64), BitVec.ofNat 8 (0x80 + n % 64)]
  else
    [BitVec.ofNat 8 (0xF0 + n / 262144), BitVec.ofNat 8 (0x80 + n / 4096 % 64),
      BitVec.ofNat 8 (0x80 + n / 64 % 64), BitVec.ofNat 8 (0x80 + n % 64)]

/-- The UTF-8 bytes of a text. -/
def utf8 (t : Text) : List Byte := t.flatMap utf8Char

end Sys2Proof.Machine
end

