-- ==== Sys2Proof/Machine/Assembler.lean ====
section
/-! DEFINITION. The assembler syntax of a line (spec/30_encoding.md R81) and the two macros (R82), which are sequences of commands. -/

namespace Sys2Proof.Machine

/-- Blanks may stand around operands (log entry 18). -/
def isBlank (c : Char) : Bool := c == ' ' || c == '\t'

/-- A text without the blanks at its two ends. -/
def trim (t : Text) : Text := ((t.dropWhile isBlank).reverse.dropWhile isBlank).reverse

/-- The parts of a text between commas. -/
def splitCommas : Text → List Text
  | [] => [[]]
  | c :: rest =>
    match splitCommas rest with
    | [] => [[c]]
    | part :: parts => if c == ',' then [] :: part :: parts else (c :: part) :: parts

/-- A number in `0x` hexadecimal or decimal (R81). -/
def asmNumber (t : Text) : Option Nat :=
  match prefixedHex t with
  | some n => some n
  | none => digitsValue 10 decDigit t

/-- The operands of a line; none if one of them is no number. -/
def asmNumbers : List Text → Option (List Nat)
  | [] => some []
  | t :: rest =>
    match asmNumber (trim t), asmNumbers rest with
    | some n, some ns => some (n :: ns)
    | _, _ => none

/-- Format Z takes no operand (R71). -/
def asmZ (i : Instr) (ns : List Nat) : Option Instr :=
  match ns with
  | [] => some i
  | _ => none

/-- Format B takes one operand that fits a byte (R71). -/
def asmB (f : Byte → Instr) (ns : List Nat) : Option Instr :=
  match ns with
  | [x] => if x < 2 ^ 8 then some (f (BitVec.ofNat 8 x)) else none
  | _ => none

/-- Format CL takes a code and a length that fit their fields (R71, R72). -/
def asmCL (f : Word → Word → Instr) (ns : List Nat) : Option Instr :=
  match ns with
  | [x, y] => if x < 2 ^ 16 ∧ y < 2 ^ 16 then some (f (BitVec.ofNat 16 x) (BitVec.ofNat 16 y)) else none
  | _ => none

/-- A command from its mnemonic, in capitals, and its operands (R81). -/
def asmCommand (m : Text) (ns : List Nat) : Option Instr :=
  if m = "NOP".toList then asmZ .nop ns
  else if m = "CRCINIT".toList then asmZ .crcinit ns
  else if m = "CRCBYTE".toList then asmB .crcbyte ns
  else if m = "CRCRD".toList then asmZ .crcrd ns
  else if m = "HDRBLD".toList then asmCL .hdrbld ns
  else if m = "PKTSTART".toList then asmCL .pktstart ns
  else if m = "PKTDATA".toList then asmB .pktdata ns
  else none

/-! ## The macros (R82) -/

/-- The macro `CHECKSUM b0, ..., bk-1` (R82). -/
def checksumMacro (bytes : List Byte) : List Instr := .crcinit :: (bytes.map .crcbyte ++ [.crcrd])

/-- The macro `PACKET code; d0, ..., dn-1` (R82). -/
def packetMacro (code : Word) (data : List Byte) : List Instr :=
  .pktstart code (BitVec.ofNat 16 data.length) :: data.map .pktdata

/-- Operands that each fit a byte. -/
def asmBytes : List Nat → Option (List Byte)
  | [] => some []
  | n :: rest =>
    match asmBytes rest with
    | some bytes => if n < 2 ^ 8 then some (BitVec.ofNat 8 n :: bytes) else none
    | none => none

/-- Operands separated by commas. -/
def asmOperands (t : Text) : Option (List Nat) := asmNumbers (if t.isEmpty then [] else splitCommas t)

/-- `CHECKSUM b0, ..., bk-1` (R82). -/
def asmChecksum (ns : List Nat) : Option (List Instr) :=
  match asmBytes ns with
  | some bytes => some (checksumMacro bytes)
  | none => none

/-- The packet of a code and data bytes, if they fit their fields. -/
def asmPacketOf (code : Nat) (ns : List Nat) : Option (List Instr) :=
  match asmBytes ns with
  | some data => if code < 2 ^ 16 ∧ data.length < 2 ^ 16 then some (packetMacro (BitVec.ofNat 16 code) data) else none
  | none => none

/-- `PACKET code; d0, ..., dn-1` (R82), or with a comma after the code (D22); `rest` is what follows the line's first `;`, up to
the next one (log entry 18). -/
def asmPacket (ns : List Nat) (rest : Text) : Option (List Instr) :=
  match ns with
  | [] => none
  | [code] =>
    match asmOperands (trim rest) with
    | some ds => asmPacketOf code ds
    | none => none
  | code :: ds => asmPacketOf code ds

/-! ## Lines -/

/-- What a mnemonic with its operands stands for (R81, R82). -/
def asmOperation (m : Text) (ns : List Nat) (rest : Text) : Option (List Instr) :=
  if m = "CHECKSUM".toList then asmChecksum ns
  else if m = "PACKET".toList then asmPacket ns rest
  else
    match asmCommand m ns with
    | some i => some [i]
    | none => none

/-- One line (R81, R82): what stands before `;`, a mnemonic and its operands. An empty line or a comment alone is no command;
`none` is a line the syntax does not allow. -/
def asmLine (t : Text) : Option (List Instr) :=
  let body := trim (t.takeWhile (· != ';'))
  let rest := ((t.dropWhile (· != ';')).drop 1).takeWhile (· != ';')
  if body.isEmpty then some []
  else
    match asmOperands (trim (body.dropWhile fun c => !isBlank c)) with
    | some ns => asmOperation (body.takeWhile fun c => !isBlank c) ns rest
    | none => none

/-- A command sequence, one command per line (R81). -/
def asmLines : List Text → Option (List Instr)
  | [] => some []
  | t :: rest =>
    match asmLine t, asmLines rest with
    | some i, some is => some (i ++ is)
    | _, _ => none

/-- A command written as R81 writes it, its operands in hexadecimal at full width. -/
def showInstr (i : Instr) : Text :=
  match i with
  | .nop => "NOP".toList
  | .crcinit => "CRCINIT".toList
  | .crcbyte x => "CRCBYTE ".toList ++ hexText x 2
  | .crcrd => "CRCRD".toList
  | .hdrbld code dataLen => "HDRBLD ".toList ++ hexText code 4 ++ ", ".toList ++ hexText dataLen 4
  | .pktstart code dataLen => "PKTSTART ".toList ++ hexText code 4 ++ ", ".toList ++ hexText dataLen 4
  | .pktdata x => "PKTDATA ".toList ++ hexText x 2

end Sys2Proof.Machine
end

