-- ==== Sys2Proof/Machine/HostSide.lean ====
section
/-! DEFINITION. The host's side (spec/40_host_software.md R90 to R105), outside the block (spec/00_scope.md R5): the catalog
lookup, the field encoder, `assemble`, the commands a host issues for it, and the boundary formats. Pure functions; what the
source leaves open in them is their argument `P`. -/

namespace Sys2Proof.Machine

/-- `lookup(code)` (R90). -/
def lookupCommand (cat : Catalog) (code : Int) : Option CommandDefinition :=
  cat.find? fun d => (d.code.toNat : Int) == code

/-- The value a request gives a field. -/
def valueOf (values : FieldValues) (name : Text) : Option Text := values.lookup name

/-- The first number that a field of a format does not hold. -/
def formatLimit (f : FieldFormat) : Nat :=
  match f with
  | .hex bytes => 2 ^ (8 * bytes)
  | .integer bytes => 2 ^ (8 * bytes)
  | .text bytes => 2 ^ (8 * bytes)

/-- A number that must fit its field; never wrapped or truncated (D29). DESIGN CHOICE (log entry 13): one that does not fit is
`InvalidField`, as one that does not parse is (R98). -/
def fitting (name : Text) (f : FieldFormat) (v : Option Int) : Except AssembleError Nat :=
  match v with
  | some n => if 0 ≤ n ∧ n < formatLimit f then .ok n.toNat else .error (.invalidField name f)
  | none => .error (.invalidField name f)

/-- A required hexadecimal input: a base-16 integer, or `InvalidField` where it cannot be parsed as one (R92, R93, R98; log
entry 11). -/
def hexField (values : FieldValues) (name : Text) (bytes : Nat) : Except AssembleError Nat :=
  match valueOf values name with
  | none => .error (.missingField name)
  | some t => fitting name (.hex bytes) ((hexNumber t).map Int.ofNat)

/-- A required integer input (R96, R98). -/
def intField (P : HostParams) (values : FieldValues) (name : Text) (bytes : Nat) : Except AssembleError Nat :=
  match valueOf values name with
  | none => .error (.missingField name)
  | some t => fitting name (.integer bytes) (P.parseInteger t)

/-- A required text input, as UTF-8 bytes whose number must fit a 2-byte length (R93, R98, D29; log entries 10 and 13). -/
def textField (values : FieldValues) (name : Text) : Except AssembleError (List Byte) :=
  match valueOf values name with
  | none => .error (.missingField name)
  | some t =>
    if (utf8 t).length < formatLimit (.text 2) then .ok (utf8 t) else .error (.invalidField name (.text 2))

/-- The error of a field, if it has one. -/
def errorOf {α : Type} (e : Except AssembleError α) : List AssembleError :=
  match e with
  | .ok _ => []
  | .error r => [r]

/-- One of the errors that apply. DESIGN CHOICE (log entry 14): which one is open (N27) and is the host's to choose, by the
command, the field values and the errors; the index is taken modulo their number, so it is always one of them. -/
def reportOne (P : HostParams) (d : CommandDefinition) (values : FieldValues) (errors : List AssembleError) : AssembleError :=
  errors.getD (P.reportedError d values errors % errors.length) .unknownCommand

/-- A 2-byte big-endian number. -/
def be16 (n : Nat) : List Byte := be (BitVec.ofNat 16 n) 2

/-- Delete File: `flag ‖ be(L, 2) ‖ name` (R93). -/
def encodeDeleteFile (P : HostParams) (d : CommandDefinition) (values : FieldValues) : Except AssembleError (List Byte) :=
  let flag := hexField values "Directory Flag".toList 1
  let name := textField values "File/Directory Name".toList
  match flag, name with
  | .ok f, .ok n => .ok (BitVec.ofNat 8 f :: (be16 n.length ++ n))
  | _, _ => .error (reportOne P d values (errorOf flag ++ errorOf name))

/-- List Files: `be(L, 2) ‖ path` (R94). -/
def encodeListFiles (values : FieldValues) : Except AssembleError (List Byte) :=
  match textField values "Directory Path".toList with
  | .ok p => .ok (be16 p.length ++ p)
  | .error r => .error r

/-- Unzip File: `be(Lz, 2) ‖ be(Ld, 2) ‖ zipname ‖ destination` (R95). -/
def encodeUnzipFile (P : HostParams) (d : CommandDefinition) (values : FieldValues) : Except AssembleError (List Byte) :=
  let zip := textField values "ZipFile Name".toList
  let dest := textField values "Destination Directory Path".toList
  match zip, dest with
  | .ok z, .ok x => .ok (be16 z.length ++ be16 x.length ++ z ++ x)
  | _, _ => .error (reportOne P d values (errorOf zip ++ errorOf dest))

/-- The chunk count of Request File: forced to 0 and its input ignored when the flag is 255, else required (R96). -/
def chunkCount (P : HostParams) (values : FieldValues) (flag : Except AssembleError Nat) : Except AssembleError Nat :=
  match flag with
  | .ok 255 => .ok 0
  | _ => intField P values "Number of Chunks to Transfer".toList 2

/-- Request File: `be(id, 2) ‖ flag ‖ be(index, 2) ‖ be(chunk_count, 2)` (R96). -/
def encodeRequestFile (P : HostParams) (d : CommandDefinition) (values : FieldValues) : Except AssembleError (List Byte) :=
  let id := intField P values "Transfer ID".toList 2
  let flag := intField P values "Transfer Flag".toList 1
  let index := intField P values "Chunk Index".toList 2
  let chunks := chunkCount P values flag
  match id, flag, index, chunks with
  | .ok i, .ok f, .ok x, .ok k => .ok (be16 i ++ [BitVec.ofNat 8 f] ++ be16 x ++ be16 k)
  | _, _, _, _ => .error (reportOne P d values (errorOf id ++ errorOf flag ++ errorOf index ++ errorOf chunks))

/-- Any other command: the sentinel `DE AD BE EF`, no input consumed (R97). -/
def encodeDefault : List Byte := be Config.sentinel 4

/-- The field encoder, its variant selected by the command's name (R92, conflict C7). -/
def encodeFields (P : HostParams) (d : CommandDefinition) (values : FieldValues) : Except AssembleError (List Byte) :=
  if d.name = "Delete File".toList then encodeDeleteFile P d values
  else if d.name = "List Files".toList then encodeListFiles values
  else if d.name = "Unzip File".toList then encodeUnzipFile P d values
  else if d.name = "Request File".toList then encodeRequestFile P d values
  else .ok encodeDefault

/-- The data field of a request: catalog lookup, then field encoding (R100). -/
def dataField (P : HostParams) (code : Int) (values : FieldValues) : Except AssembleError (List Byte) :=
  match lookupCommand P.catalog code with
  | none => .error .unknownCommand
  | some d => encodeFields P d values

/-- The data field the host hands on. DESIGN CHOICE (log entry 16): one of more than 65535 bytes, whose length no operand can
express, gives an error that the spec leaves open (R101, N5). -/
def handedData (P : HostParams) (code : Int) (values : FieldValues) : Except AssembleError (List Byte) :=
  match dataField P code values with
  | .error r => .error r
  | .ok data => if data.length < 2 ^ 16 then .ok data else .error (P.overlongError code values)

/-- The source's `build(code, data_length)` with the block's errors (R112, R101). DESIGN CHOICE (log entry 21): for a length above
65535, which the source does not define and the block cannot be given (R112, N5), it answers `LengthOverflow` as it does for 65535;
`assemble` never asks it for one, since `handedData` refuses first. -/
def buildHeader (code : Int) (n : Nat) : Except AssembleError (List Byte) :=
  if code < 0 ∨ (Config.codeMax : Int) < code then .error .invalidCode
  else if Config.maxDataLen < n then .error .lengthOverflow
  else .ok (headerBytes (BitVec.ofNat 16 code.toNat) (BitVec.ofNat 16 n))

/-- The source's `assemble(code, values)` (R100). -/
def assemble (P : HostParams) (code : Int) (values : FieldValues) : Except AssembleError (List Byte) :=
  match handedData P code values with
  | .error r => .error r
  | .ok data =>
    match buildHeader code data.length with
    | .error r => .error r
    | .ok h => .ok (syncBytes ++ h ++ data ++ trailerBytes (checksum (h ++ data)))

/-- The commands a host issues for a request: none before the data field is complete (R100, R101, R206). -/
def hostCommands (P : HostParams) (code : Int) (values : FieldValues) : Except AssembleError (List Instr) :=
  match handedData P code values with
  | .error r => .error r
  | .ok data => .ok (packetMacro (BitVec.ofNat 16 code.toNat) data)

/-! ## What the host gets back from the block (R100, R101, R105) -/

/-- The error a response tells the host, its kind being the status (R105, R79). -/
def blockError (st : Status) : Option AssembleError :=
  match st with
  | .ok => none
  | .invalidCode => some .invalidCode
  | .lengthOverflow => some .lengthOverflow
  | .protocolError => some .protocolError
  | .illegalOp => some .illegalOp

/-- The result of the commands a host issued between two states: the first error among their responses, unchanged (R100), or the
bytes the block emitted for them. -/
def hostResult (before after : State) : Except AssembleError (List Byte) :=
  match (after.rspStream.drop before.rspStream.length).findSome? fun r => blockError r.status with
  | some e => .error e
  | none => .ok (after.txStream.drop before.txStream.length)

/-! ## The boundary toward the HTTP layer (R102 to R105) -/

/-- `apid`, a string formatted as `0xNN` (R102). -/
def parseApid (P : HostParams) (t : Text) : Option Nat :=
  match t with
  | ['0', 'x', hi, lo] =>
    match hexDigit hi, hexDigit lo with
    | some x, some y => some (16 * x + y)
    | _, _ => P.parseApidOther t
  | _ => P.parseApidOther t

/-- The kind of an error (R105, R177). -/
def errorKind (e : AssembleError) : ErrorKind :=
  match e with
  | .unknownCommand => .unknownCommand
  | .missingField _ => .missingField
  | .invalidField _ _ => .invalidField
  | .invalidCode => .invalidCode
  | .lengthOverflow => .lengthOverflow
  | .protocolError => .protocolError
  | .illegalOp => .illegalOp

/-- The block's status of a kind; the host's three kinds have none (R79, R105, R177). -/
def kindStatus (k : ErrorKind) : Option (BitVec 4) :=
  match k with
  | .unknownCommand => none
  | .missingField => none
  | .invalidField => none
  | .invalidCode => some (statusCode .invalidCode)
  | .lengthOverflow => some (statusCode .lengthOverflow)
  | .protocolError => some (statusCode .protocolError)
  | .illegalOp => some (statusCode .illegalOp)

/-- The field an error's message names (R98). -/
def namedField (e : AssembleError) : Option Text :=
  match e with
  | .unknownCommand => none
  | .missingField name => some name
  | .invalidField name _ => some name
  | .invalidCode => none
  | .lengthOverflow => none
  | .protocolError => none
  | .illegalOp => none

/-- The expected format an error's message names (R98). -/
def namedFormat (e : AssembleError) : Option FieldFormat :=
  match e with
  | .unknownCommand => none
  | .missingField _ => none
  | .invalidField _ f => some f
  | .invalidCode => none
  | .lengthOverflow => none
  | .protocolError => none
  | .illegalOp => none

/-- The structured error the boundary receives (R98, R105). -/
def errorReply (P : HostParams) (e : AssembleError) : ErrorReply :=
  ⟨errorKind e, ⟨namedField e, namedFormat e, P.errorMessage e⟩⟩

/-- The structured error of a response of the block, if it is one (R105). -/
def responseReply (P : HostParams) (r : Response) : Option ErrorReply := (blockError r.status).map (errorReply P)

/-- One inbound request and what goes back (R102, R103, R105). -/
def handleRequest (P : HostParams) (req : Request) : Except ErrorReply Reply :=
  match parseApid P req.apid with
  | none => .error (errorReply P (P.malformedApid req.apid))
  | some code =>
    match assemble P code req.fields with
    | .error r => .error (errorReply P r)
    | .ok bytes =>
      let ints := bytes.map BitVec.toNat
      .ok ⟨P.renderHex ints, ints⟩

/-- The catalog export, for display only (R104). -/
def catalogExport (cat : Catalog) : List (Nat × Text × List (Text × Option FieldType)) :=
  cat.map fun d => (d.code.toNat, d.name, d.fields.map fun f => (f.name, f.type))

end Sys2Proof.Machine
end

