-- ==== Sys2Proof/Safety.lean ====
section
/-! DEFINITION. What holds of every state a run reaches (spec/10_state.md R22 to R24, R31, R33; spec/70_reset_and_hazards.md R212)
and what a finished and a stuck run are (R207, R212). -/

namespace Sys2Proof.Machine

/-- A run may end here: no frame is open (R212). -/
def Finished (s : State) : Prop := s.remaining = 0#16

/-- A run that ends here is stuck: a frame is open and no move of the host is left (R207). -/
def Stuck (s : State) : Prop := s.remaining ≠ 0#16 ∧ s.pending = []

/-- `remaining <= 0xFFFE` (R22, R33). -/
def RemainingBounded (s : State) : Prop := s.remaining ≠ 0xFFFF#16

/-- The packets of a list of codes and data fields, one after another with nothing between (R147, R212). -/
def wholePackets (ps : List (Byte × List Byte)) : List Byte :=
  ps.flatMap fun p => packetBytes (p.1.setWidth 16) p.2

/-- The TX stream is whole packets, and, while a frame is open, the sync marker, the header and the data bytes accepted so far of
one more, over whose header and data `crc` is the checksum (R33, R212). -/
def StreamInv (s : State) : Prop :=
  ∃ ps : List (Byte × List Byte), (∀ p ∈ ps, p.2.length ≤ 65534) ∧
    ((s.remaining = 0#16 ∧ s.txStream = wholePackets ps) ∨
      (s.remaining ≠ 0#16 ∧ ∃ (code : Byte) (n : Word) (d : List Byte), n ≠ 0xFFFF#16 ∧
        d.length + s.remaining.toNat = n.toNat ∧
        s.txStream = wholePackets ps ++ (syncBytes ++ (headerBytes (code.setWidth 16) n ++ d)) ∧
        s.crc = checksum (headerBytes (code.setWidth 16) n ++ d)))

/-- What crossed the TX port since the last reset, followed by what waits there, is the TX stream; likewise for responses: in
order, none lost, none doubled (R42, R43). -/
def PortsInv (s : State) : Prop :=
  (∃ before crossed, s.txSent = before ++ crossed ∧ s.txStream = crossed ++ s.txQueue) ∧
    (∃ before crossed, s.rspTaken = before ++ crossed ∧ s.rspStream = crossed ++ s.rspQueue)

/-- Every response with an error status has data 0 (R78). -/
def ResponsesInv (s : State) : Prop := ∀ r ∈ s.rspStream, r.status ≠ .ok → r.data = 0#48

end Sys2Proof.Machine
end

