-- ==== Sys2Proof/Certificates/Slice0/Obligations.lean ====
section
/-! DEFINITION. The statements for the provers. Each docstring names the rule of spec/ it formalises. -/

open Sys2Proof Sys2Proof.Machine

/-! ## Reset, the ports and the step -/

/-- R32: the reset values the spec gives. -/
def Obligations.ResetStateHoldsTheSpecValues : Prop :=
  State.reset.crc = 0xFFFF#16 ∧ State.reset.remaining = 0x0000#16 ∧ inFrame State.reset = false ∧
    State.reset.txStream = [] ∧ State.reset.rspStream = []

/-- R200, R201: a reset move, whatever the state: the registers and histories start again, what is in flight is discarded, what
crossed a port stays crossed, and no pending word is consumed. `txSent`, `rspTaken` and `pending` are the model's own fields
(log entries 1, 5, 6). -/
def Obligations.ResetMoveRestartsTheBlock : Prop :=
  ∀ (s : State) (rest : List HostMove),
    step { s with pending := .reset :: rest } =
      .next { crc := 0xFFFF#16, remaining := 0x0000#16, txStream := [], rspStream := [], txQueue := [], rspQueue := [],
              txSent := s.txSent, rspTaken := s.rspTaken, pending := rest }

/-- R42, R43: a transfer takes the oldest waiting byte or response, and nothing else changes; with nothing waiting, nothing
crosses. -/
def Obligations.TransfersTakeTheOldestFirst : Prop :=
  ∀ (s : State) (rest : List HostMove),
    (∀ (x : Byte) (q : List Byte),
      step { s with txQueue := x :: q, pending := .takeTx :: rest } =
        .next { s with txQueue := q, txSent := s.txSent ++ [x], pending := rest }) ∧
    step { s with txQueue := [], pending := .takeTx :: rest } = .next { s with txQueue := [], pending := rest } ∧
    (∀ (r : Response) (q : List Response),
      step { s with rspQueue := r :: q, pending := .takeResponse :: rest } =
        .next { s with rspQueue := q, rspTaken := s.rspTaken ++ [r], pending := rest }) ∧
    step { s with rspQueue := [], pending := .takeResponse :: rest } = .next { s with rspQueue := [], pending := rest }

/-- R207, R212, U15: with no move of the host left the block has no step. The names of the two stops are the model's (log
entry 2). -/
def Obligations.WithoutAMoveTheBlockStops : Prop :=
  ∀ s : State,
    step { s with pending := [] } =
      if s.remaining = 0#16 then .fault .awaitingCommand else .fault .stuckInFrame

/-- R13, R41: a step on an accepted legal word executes the command it decodes to, with that move consumed. -/
def Obligations.StepRunsTheDecodedCommand : Prop :=
  ∀ (s : State) (w : CommandWord) (rest : List HostMove) (i : Instr), decode w = .ok i →
    step { s with pending := .command w :: rest } = exec i { s with pending := rest }

/-- R173: a word is answered `IllegalOp`, status `0x4`, with no other effect, exactly when its opcode is above `0x06` or a bit its
format reserves is 1; the state does not matter. -/
def Obligations.IllegalOpIsDecidedFromTheWordAlone : Prop :=
  statusCode .illegalOp = 0x4#4 ∧ ∀ (s : State) (w : CommandWord) (rest : List HostMove),
    let op := w.toNat / 2 ^ 32
    if 6 < op ∨ (op ∈ [0, 1, 3] ∧ w.toNat % 2 ^ 32 ≠ 0) ∨ (op ∈ [2, 6] ∧ w.toNat % 2 ^ 32 / 2 ^ 8 ≠ 0) then
      step { s with pending := .command w :: rest } =
        .next { s with pending := rest, rspStream := s.rspStream ++ [⟨.illegalOp, 0#48⟩],
                       rspQueue := s.rspQueue ++ [⟨.illegalOp, 0#48⟩] }
    else
      ∃ t r, step { s with pending := .command w :: rest } = .next t ∧ t.rspStream = s.rspStream ++ [r] ∧
        r.status ≠ .illegalOp

/-- R13, R24, R46: every word in every state yields a next state, exactly one response and a finite byte string, and the word is
consumed. -/
def Obligations.EveryWordYieldsOneResponse : Prop :=
  ∀ (s : State) (w : CommandWord) (rest : List HostMove),
    ∃ t r bytes, step { s with pending := .command w :: rest } = .next t ∧
      t.rspStream = s.rspStream ++ [r] ∧ t.rspQueue = s.rspQueue ++ [r] ∧
      t.txStream = s.txStream ++ bytes ∧ t.txQueue = s.txQueue ++ bytes ∧ bytes.length ≤ 12 ∧
      t.txSent = s.txSent ∧ t.rspTaken = s.rspTaken ∧ t.pending = rest

/-- R46, R51: accepted words take effect in order, each on the state the one before it left. -/
def Obligations.AcceptedWordsTakeEffectInOrder : Prop :=
  ∀ (is : List Instr) (s : State) (rest : List HostMove),
    Host.Core.run Sys2Proof.core is.length { s with pending := is.map (fun i => HostMove.command (encode i)) ++ rest } =
      execAll is { s with pending := rest }

/-- R79: the numbers of the statuses, all different, none above 4. -/
def Obligations.StatusCodesAreNumberedAndDistinct : Prop :=
  statusCode .ok = 0x0#4 ∧ statusCode .invalidCode = 0x1#4 ∧ statusCode .lengthOverflow = 0x2#4 ∧
    statusCode .protocolError = 0x3#4 ∧ statusCode .illegalOp = 0x4#4 ∧
    (∀ a b : Status, statusCode a = statusCode b → a = b) ∧ ∀ a : Status, (statusCode a).toNat < 5

/-! ## Decoding and encoding -/

/-- R70 to R74: no bit of any operand is dropped between encoding and decoding, for every command. -/
def Obligations.DecodeOfEncodeIsTheCommand : Prop := ∀ i : Instr, decode (encode i) = .ok i

/-- R73, R75: a word that decodes is the encoding of what it decodes to, so each command has one word. -/
def Obligations.OnlyEncodingsDecode : Prop :=
  ∀ (w : CommandWord) (i : Instr), decode w = .ok i → encode i = w

/-- R73: a word matches exactly one row of the opcode map, and then it decodes, or none, and then it does not. -/
def Obligations.WordsMatchOneRowOrNone : Prop :=
  ∀ w : CommandWord,
    ((∃ r ∈ opcodeMap, w &&& r.mask = r.matchBits ∧ ∀ q ∈ opcodeMap, w &&& q.mask = q.matchBits → q = r) ∧
      ∃ i, decode w = .ok i) ∨
    ((∀ r ∈ opcodeMap, w &&& r.mask ≠ r.matchBits) ∧ ∃ e, decode w = .error e)

/-- R71, R75: the words that decode are the well-formed ones. -/
def Obligations.WellFormedWordsAreTheOnesThatDecode : Prop :=
  ∀ w : CommandWord, wordWellFormed w = true ↔ ∃ i, decode w = .ok i

/-- R83: the worked encodings, the answer of the legal word with an illegal code, and the two illegal words. -/
def Obligations.WorkedEncodingsAreAsListed : Prop :=
  encode .nop = 0x0000000000#40 ∧ encode .crcinit = 0x0100000000#40 ∧ encode (.crcbyte 0x31) = 0x0200000031#40 ∧
    encode .crcrd = 0x0300000000#40 ∧ encode (.hdrbld 0x42 6) = 0x0400420006#40 ∧
    encode (.pktstart 0xFE 3) = 0x0500FE0003#40 ∧ encode (.pktdata 0x61) = 0x0600000061#40 ∧
    encode (.hdrbld 0x100 0) = 0x0401000000#40 ∧
    decode 0x0000000000#40 = .ok .nop ∧ decode 0x0100000000#40 = .ok .crcinit ∧
    decode 0x0200000031#40 = .ok (.crcbyte 0x31) ∧ decode 0x0300000000#40 = .ok .crcrd ∧
    decode 0x0400420006#40 = .ok (.hdrbld 0x42 6) ∧ decode 0x0500FE0003#40 = .ok (.pktstart 0xFE 3) ∧
    decode 0x0600000061#40 = .ok (.pktdata 0x61) ∧ decode 0x0401000000#40 = .ok (.hdrbld 0x100 0) ∧
    (∀ s : State, exec (.hdrbld 0x100 0) s =
      .next { s with rspStream := s.rspStream ++ [⟨.invalidCode, 0#48⟩], rspQueue := s.rspQueue ++ [⟨.invalidCode, 0#48⟩] }) ∧
    ∀ (s : State) (rest : List HostMove) (w : CommandWord), w = 0x0700000000#40 ∨ w = 0xFFFFFFFFFF#40 →
      step { s with pending := .command w :: rest } =
        .next { s with pending := rest, rspStream := s.rspStream ++ [⟨.illegalOp, 0#48⟩],
                       rspQueue := s.rspQueue ++ [⟨.illegalOp, 0#48⟩] }

/-! ## The commands -/

/-- R160: `NOP` answers `(OK, 0)` in every state and does nothing else. -/
def Obligations.NopOnlyAnswers : Prop :=
  decode 0x0000000000#40 = .ok .nop ∧
    ∀ s : State, exec .nop s =
      .next { s with rspStream := s.rspStream ++ [⟨.ok, 0#48⟩], rspQueue := s.rspQueue ++ [⟨.ok, 0#48⟩] }

/-- R125: `CRCINIT` with no frame open sets `crc` to `0xFFFF`; inside a frame it is refused. -/
def Obligations.CrcinitSetsTheInitialValue : Prop :=
  decode 0x0100000000#40 = .ok .crcinit ∧
    ∀ s : State,
      (s.remaining = 0#16 → exec .crcinit s =
        .next { s with crc := 0xFFFF#16, rspStream := s.rspStream ++ [⟨.ok, 0#48⟩], rspQueue := s.rspQueue ++ [⟨.ok, 0#48⟩] }) ∧
      (s.remaining ≠ 0#16 → exec .crcinit s =
        .next { s with rspStream := s.rspStream ++ [⟨.protocolError, 0#48⟩],
                       rspQueue := s.rspQueue ++ [⟨.protocolError, 0#48⟩] })

/-- R126: `CRCBYTE` with no frame open feeds its byte to `crc`; inside a frame it is refused; two of the rule's values. -/
def Obligations.CrcbyteFeedsOneByte : Prop :=
  (∀ x : Byte, decode (0x02000000#32 ++ x) = .ok (.crcbyte x)) ∧
    crcByte 0xFFFF#16 0x00#8 = 0xE1F0#16 ∧ crcByte 0xFFFF#16 0x31#8 = 0xC782#16 ∧
    ∀ (s : State) (x : Byte),
      (s.remaining = 0#16 → exec (.crcbyte x) s =
        .next { s with crc := crcByte s.crc x, rspStream := s.rspStream ++ [⟨.ok, 0#48⟩],
                       rspQueue := s.rspQueue ++ [⟨.ok, 0#48⟩] }) ∧
      (s.remaining ≠ 0#16 → exec (.crcbyte x) s =
        .next { s with rspStream := s.rspStream ++ [⟨.protocolError, 0#48⟩],
                       rspQueue := s.rspQueue ++ [⟨.protocolError, 0#48⟩] })

/-- R127: `CRCRD` answers `crc`, zero-extended, in every state, inside a frame too, and changes nothing. -/
def Obligations.CrcrdReturnsTheAccumulator : Prop :=
  decode 0x0300000000#40 = .ok .crcrd ∧
    ∀ s : State, exec .crcrd s =
      .next { s with rspStream := s.rspStream ++ [⟨.ok, BitVec.ofNat 48 s.crc.toNat⟩],
                     rspQueue := s.rspQueue ++ [⟨.ok, BitVec.ofNat 48 s.crc.toNat⟩] }

/-- R110: `HDRBLD` in every state, frame open or not: the header of a legal code and length in the response, else the first
error that applies; nothing else changes. -/
def Obligations.HdrbldBuildsTheHeader : Prop :=
  (∀ code len : Word, decode (0x04#8 ++ code ++ len) = .ok (.hdrbld code len)) ∧
    ∀ (s : State) (code len : Word),
      (code.toNat ≤ 255 → len.toNat ≤ 65534 →
        let d := BitVec.ofNat 48 ((0x2000 + code.toNat) * 2 ^ 32 + 0xC000 * 2 ^ 16 + (len.toNat + 1))
        exec (.hdrbld code len) s =
          .next { s with rspStream := s.rspStream ++ [⟨.ok, d⟩], rspQueue := s.rspQueue ++ [⟨.ok, d⟩] }) ∧
      (255 < code.toNat → exec (.hdrbld code len) s =
        .next { s with rspStream := s.rspStream ++ [⟨.invalidCode, 0#48⟩],
                       rspQueue := s.rspQueue ++ [⟨.invalidCode, 0#48⟩] }) ∧
      (code.toNat ≤ 255 → len = 0xFFFF#16 → exec (.hdrbld code len) s =
        .next { s with rspStream := s.rspStream ++ [⟨.lengthOverflow, 0#48⟩],
                       rspQueue := s.rspQueue ++ [⟨.lengthOverflow, 0#48⟩] })

/-- R140: `PKTSTART` with no frame open and operands in range emits sync marker and header, and for an empty data field the
trailer too, starts the checksum from `0xFFFF` over the header, and records the bytes owed. -/
def Obligations.PktstartOpensAFrame : Prop :=
  ∀ (s : State) (code len : Word), s.remaining = 0#16 → code.toNat ≤ 255 → len.toNat ≤ 65534 →
    let h : List Byte := [0x20#8, BitVec.ofNat 8 code.toNat, 0xC0#8, 0x00#8,
      BitVec.ofNat 8 ((len.toNat + 1) / 256), BitVec.ofNat 8 (len.toNat + 1)]
    let k := crcBytes 0xFFFF#16 h
    let bytes := [0x35#8, 0x2E#8, 0xF8#8, 0x53#8] ++ h ++
      (if len = 0#16 then [k.extractLsb' 8 8, k.extractLsb' 0 8] else [])
    exec (.pktstart code len) s =
      .next { s with crc := k, remaining := len, txStream := s.txStream ++ bytes, txQueue := s.txQueue ++ bytes,
                     rspStream := s.rspStream ++ [⟨.ok, 0#48⟩], rspQueue := s.rspQueue ++ [⟨.ok, 0#48⟩] }

/-- R140: the three refusals of `PKTSTART`, in their order, none of which emits a byte or changes a register. -/
def Obligations.PktstartRefusesBeforeTheFirstByte : Prop :=
  ∀ (s : State) (code len : Word),
    (s.remaining ≠ 0#16 → exec (.pktstart code len) s =
      .next { s with rspStream := s.rspStream ++ [⟨.protocolError, 0#48⟩],
                     rspQueue := s.rspQueue ++ [⟨.protocolError, 0#48⟩] }) ∧
    (s.remaining = 0#16 → 255 < code.toNat → exec (.pktstart code len) s =
      .next { s with rspStream := s.rspStream ++ [⟨.invalidCode, 0#48⟩],
                     rspQueue := s.rspQueue ++ [⟨.invalidCode, 0#48⟩] }) ∧
    (s.remaining = 0#16 → code.toNat ≤ 255 → len = 0xFFFF#16 → exec (.pktstart code len) s =
      .next { s with rspStream := s.rspStream ++ [⟨.lengthOverflow, 0#48⟩],
                     rspQueue := s.rspQueue ++ [⟨.lengthOverflow, 0#48⟩] })

/-- R141: `PKTDATA` in an open frame emits its byte, feeds it to the checksum and counts it; the byte that completes the data
field also emits the checksum that covers it. With no frame open it is refused. -/
def Obligations.PktdataSendsOneByte : Prop :=
  (∀ x : Byte, decode (0x06000000#32 ++ x) = .ok (.pktdata x)) ∧
    ∀ (s : State) (x : Byte),
      (s.remaining ≠ 0#16 →
        let k := crcByte s.crc x
        let bytes := x :: (if s.remaining = 1#16 then [k.extractLsb' 8 8, k.extractLsb' 0 8] else [])
        exec (.pktdata x) s =
          .next { s with crc := k, remaining := BitVec.ofNat 16 (s.remaining.toNat - 1),
                         txStream := s.txStream ++ bytes, txQueue := s.txQueue ++ bytes,
                         rspStream := s.rspStream ++ [⟨.ok, 0#48⟩], rspQueue := s.rspQueue ++ [⟨.ok, 0#48⟩] }) ∧
      (s.remaining = 0#16 → exec (.pktdata x) s =
        .next { s with rspStream := s.rspStream ++ [⟨.protocolError, 0#48⟩],
                       rspQueue := s.rspQueue ++ [⟨.protocolError, 0#48⟩] })

/-- R174: the complete table of commands against the frame condition, as the commands answered `ProtocolError`, status `0x3`. -/
def Obligations.ProtocolErrorFollowsTheFrameTable : Prop :=
  statusCode .protocolError = 0x3#4 ∧ ∀ (i : Instr) (s : State), ∃ t r, exec i s = .next t ∧ t.rspStream = s.rspStream ++ [r] ∧
    (r.status = .protocolError ↔
      (s.remaining ≠ 0#16 ∧ (i = .crcinit ∨ (∃ x, i = .crcbyte x) ∨ ∃ c n, i = .pktstart c n)) ∨
      (s.remaining = 0#16 ∧ ∃ x, i = .pktdata x))

/-- R175: a word's one status is the first that applies of `IllegalOp`, `ProtocolError`, `InvalidCode`, `LengthOverflow`, `OK`. -/
def Obligations.StatusIsTheFirstErrorThatApplies : Prop :=
  ∀ (s : State) (w : CommandWord) (rest : List HostMove),
    let op := w.toNat / 2 ^ 32
    let a := w.toNat / 2 ^ 16 % 2 ^ 16
    let b := w.toNat % 2 ^ 16
    ∃ t r, step { s with pending := .command w :: rest } = .next t ∧ t.rspStream = s.rspStream ++ [r] ∧
      r.status =
        if (∀ q ∈ opcodeMap, w &&& q.mask ≠ q.matchBits) then .illegalOp
        else if (op ∈ [1, 2, 5] ∧ s.remaining ≠ 0#16) ∨ (op = 6 ∧ s.remaining = 0#16) then .protocolError
        else if op ∈ [4, 5] ∧ 255 < a then .invalidCode
        else if op ∈ [4, 5] ∧ b = 65535 then .lengthOverflow
        else .ok

/-- R176: whatever the word, an error status means data 0, both registers and both TX lists as they were, and nothing else
changed. -/
def Obligations.RefusedCommandsHaveNoOtherEffect : Prop :=
  ∀ (s : State) (w : CommandWord) (rest : List HostMove),
    ∃ t r, step { s with pending := .command w :: rest } = .next t ∧ t.rspStream = s.rspStream ++ [r] ∧
      (r.status ≠ .ok → r.data = 0#48 ∧
        t = { s with pending := rest, rspStream := s.rspStream ++ [r], rspQueue := s.rspQueue ++ [r] })

/-- R178: whatever follows a refused command goes exactly as if it had not been issued, but for its one response. -/
def Obligations.RefusedCommandIsAsIfNeverIssued : Prop :=
  ∀ (s : State) (i : Instr) (e : Status) (is : List Instr),
    exec i s = .next { s with rspStream := s.rspStream ++ [⟨e, 0#48⟩], rspQueue := s.rspQueue ++ [⟨e, 0#48⟩] } →
    ∃ v rs, execAll is s = .next v ∧ v.rspStream = s.rspStream ++ rs ∧ v.rspQueue = s.rspQueue ++ rs ∧
      execAll (i :: is) s =
        .next { v with rspStream := s.rspStream ++ ⟨e, 0#48⟩ :: rs, rspQueue := s.rspQueue ++ ⟨e, 0#48⟩ :: rs }

/-- R20, R21, R48, R56: the frame of every command: what it may change besides giving its one response. `NOP`, `CRCRD` and
`HDRBLD` change nothing, `CRCINIT` and `CRCBYTE` only `crc`, `PKTSTART` and `PKTDATA` only `crc`, `remaining` and the TX lists,
which they extend alike. -/
def Obligations.CommandsChangeOnlyTheirOwnState : Prop :=
  ∀ (s : State) (i : Instr), ∃ (r : Response) (k m : Word) (bytes : List Byte),
    exec i s =
      .next { s with crc := k, remaining := m, txStream := s.txStream ++ bytes, txQueue := s.txQueue ++ bytes,
                     rspStream := s.rspStream ++ [r], rspQueue := s.rspQueue ++ [r] } ∧
    (i = .nop ∨ i = .crcrd ∨ (∃ c n, i = .hdrbld c n) → k = s.crc ∧ m = s.remaining ∧ bytes = []) ∧
    (i = .crcinit ∨ (∃ x, i = .crcbyte x) → m = s.remaining ∧ bytes = [])

/-- R142: a step opens a frame only by an executed `PKTSTART` with a length above 0, and closes one only by the `PKTDATA` at
`remaining = 1` or by reset. -/
def Obligations.FramesOpenAndCloseOnlyAsStated : Prop :=
  ∀ s t : State, step s = .next t →
    (s.remaining = 0#16 → t.remaining ≠ 0#16 →
      ∃ w rest code len, s.pending = .command w :: rest ∧ decode w = .ok (.pktstart code len) ∧ code.toNat ≤ 255 ∧
        len ≠ 0#16 ∧ len ≠ 0xFFFF#16 ∧ t.remaining = len) ∧
    (s.remaining ≠ 0#16 → t.remaining = 0#16 →
      (∃ rest, s.pending = .reset :: rest) ∨
      (s.remaining = 1#16 ∧ ∃ w rest x, s.pending = .command w :: rest ∧ decode w = .ok (.pktdata x)))

/-- R207: in an open frame no move but an accepted `PKTDATA` or a reset changes a register or the TX stream. -/
def Obligations.OnlyPktdataOrResetMovesAnOpenFrame : Prop :=
  ∀ (s : State) (m : HostMove) (rest : List HostMove), s.remaining ≠ 0#16 → m ≠ .reset →
    (∀ w x, m = .command w → decode w ≠ .ok (.pktdata x)) →
    ∃ t, step { s with pending := m :: rest } = .next t ∧ t.remaining = s.remaining ∧ t.crc = s.crc ∧
      t.txStream = s.txStream

/-! ## The checksum -/

/-- R120: `crc_bit` by its feedback bit and shift, and as a shift register of sixteen flip-flops. -/
def Obligations.CrcBitIsTheShiftRegister : Prop :=
  ∀ (r : Word) (d : Bool),
    let fb := r.getLsbD 15 ^^ d
    (crcBit r d = let s := BitVec.ofNat 16 (2 * r.toNat); if fb then s ^^^ 0x1021#16 else s) ∧
    ∀ i : Nat, i < 16 → (crcBit r d).getLsbD i =
      if i = 0 then fb else if i = 5 ∨ i = 12 then (r.getLsbD (i - 1) ^^ fb) else r.getLsbD (i - 1)

/-- R121: `crc_byte` takes the bits of a byte most significant first; the software form gives the same value for every register
and byte; the worked steps. -/
def Obligations.CrcByteEqualsTheSoftwareForm : Prop :=
  (∀ (r : Word) (x : Byte),
    crcByte r x = [7, 6, 5, 4, 3, 2, 1, 0].foldl (fun k i => crcBit k (x.getLsbD i)) r ∧ crcByte r x = crcByteShift r x) ∧
  [7, 6, 5, 4, 3, 2, 1, 0].scanl (fun k i => crcBit k ((0x31#8).getLsbD i)) 0xFFFF#16 =
    [0xFFFF#16, 0xEFDF#16, 0xCF9F#16, 0x9F3E#16, 0x3E7C#16, 0x7CF8#16, 0xF9F0#16, 0xE3C1#16, 0xC782#16]

/-- R128: the sixteen XOR equations give the same value for every register and byte. -/
def Obligations.CrcByteEqualsTheEquations : Prop :=
  ∀ (r : Word) (x : Byte), crcByte r x = crcByteEquations r x

/-- R129: the table's entries are `crc_byte(0, i)`, and the table form gives the same value for every register and byte. -/
def Obligations.CrcByteEqualsTheTable : Prop :=
  crcTable.length = 256 ∧ (∀ i : Byte, crcTable.getD i.toNat 0#16 = crcByte 0x0000#16 i) ∧
    ∀ (r : Word) (x : Byte), crcByte r x = crcByteTable r x

/-- R130 (a), (b): streaming and linearity. -/
def Obligations.CrcStreamsAndIsLinear : Prop :=
  (∀ (r : Word) (s t : List Byte), crcBytes r (s ++ t) = crcBytes (crcBytes r s) t) ∧
    (∀ (r q : Word) (x y : Byte), crcByte (r ^^^ q) (x ^^^ y) = crcByte r x ^^^ crcByte q y) ∧
    crcByte 0x0000#16 0x00#8 = 0x0000#16

/-- R130 (c), (d): each `crc_byte(., x)` is a bijection, each `crc_byte(c, .)` is injective, and the empty message has the
checksum `0xFFFF`. -/
def Obligations.CrcByteLosesNothing : Prop :=
  (∀ x : Byte, Function.Bijective fun r : Word => crcByte r x) ∧
    (∀ r : Word, Function.Injective fun x : Byte => crcByte r x) ∧ checksum [] = 0xFFFF#16

/-- R130 (e), general knowledge in the spec (G7): from register 0 the CRC is the remainder of `S(x) * x^16` divided by
`G(x) = x^16 + x^12 + x^5 + 1` over GF(2), the first byte's bit 7 being the highest coefficient. -/
def Obligations.CrcIsThePolynomialRemainder : Prop :=
  ∀ s : List Byte,
    let poly : List Bool → Polynomial (ZMod 2) := fun bits =>
      bits.foldl (fun p b => p * Polynomial.X + Polynomial.C (if b then 1 else 0)) 0
    poly ((List.range 16).map fun i => (crcBytes 0x0000#16 s).getLsbD (15 - i)) =
      (poly (s.flatMap (messageBits false)) * Polynomial.X ^ 16) %ₘ
        (Polynomial.X ^ 16 + Polynomial.X ^ 12 + Polynomial.X ^ 5 + 1)

/-- R131: a message followed by its checksum, most significant byte first, leaves the register at 0; with the two bytes swapped,
what is left depends on the message. -/
def Obligations.TrailerLeavesResidueZero : Prop :=
  (∀ m : List Byte,
    let k := crcBytes 0xFFFF#16 m
    crcBytes 0xFFFF#16 (m ++ [k.extractLsb' 8 8, k.extractLsb' 0 8]) = 0x0000#16) ∧
  ¬ ∃ v : Word, ∀ m : List Byte,
    let k := crcBytes 0xFFFF#16 m
    crcBytes 0xFFFF#16 (m ++ [k.extractLsb' 0 8, k.extractLsb' 8 8]) = v

/-- R122 to R124, G1: the checksum is the CRC that the parameter set of R8 denotes in the usual parameterised model. -/
def Obligations.ChecksumIsTheParameterisedCrc : Prop :=
  ∀ s : List Byte, checksum s = paramCrc ⟨0x1021#16, 0xFFFF#16, false, false, 0x0000#16⟩ s

/-! ## The header and the packet -/

/-- R69: the header value's six bytes, and the rule's example. -/
def Obligations.HeaderBytesAreAsListed : Prop :=
  (∀ code len : Word, code.toNat ≤ 255 → len.toNat ≤ 65534 →
    (hdr48 code len).toNat = (0x2000 ||| code.toNat) * 2 ^ 32 + 0xC000 * 2 ^ 16 + (len.toNat + 1) ∧
    headerBytes code len = [0x20#8, code.extractLsb' 0 8, 0xC0#8, 0x00#8,
      BitVec.ofNat 8 ((len.toNat + 1) / 256), BitVec.ofNat 8 (len.toNat + 1)]) ∧
    hdr48 0x42#16 6#16 = 0x2042C0000007#48

/-- R111: OR equals addition on a legal code, the 17-bit sum decides `LengthOverflow` and gives the length word, and the header
value determines its operands. -/
def Obligations.HeaderArithmeticNeverWraps : Prop :=
  (∀ code : Word, code.toNat ≤ 255 → (headerCommandWord code).toNat = 0x2000 + code.toNat) ∧
    (∀ len : Word,
      let s := len.setWidth 17 + 1#17
      (lengthTooBig len = true ↔ s.msb = true) ∧ (s.msb = false → headerLengthWord len = s.setWidth 16)) ∧
    ∀ code len : Word, code.toNat ≤ 255 → len.toNat ≤ 65534 →
      code.toNat = ((hdr48 code len).extractLsb' 32 8).toNat ∧ len.toNat = ((hdr48 code len).extractLsb' 0 16).toNat - 1

/-- R49, R60, R61, R63: a packet starts with the sync marker, has `12 + n` bytes, its data at offset 10, and its last two bytes are
the checksum of the `6 + n` bytes from offset 4, most significant first. -/
def Obligations.PacketsAreFramedAsMapped : Prop :=
  ∀ (code : Word) (d : List Byte), code.toNat ≤ 255 → d.length ≤ 65534 →
    let p := packetBytes code d
    let k := checksum ((p.drop 4).take (6 + d.length))
    p.length = 12 + d.length ∧ p.take 4 = [0x35#8, 0x2E#8, 0xF8#8, 0x53#8] ∧
      (p.drop 4).take 6 = headerBytes code (BitVec.ofNat 16 d.length) ∧ (p.drop 10).take d.length = d ∧
      p.drop (10 + d.length) = [k.extractLsb' 8 8, k.extractLsb' 0 8]

/-- R144, the frame law: from any closed state, `PKTSTART code, n` and the `n` `PKTDATA` of `d`, with any `NOP`, `CRCRD` and
`HDRBLD` after or between them, emit exactly the packet, leave the block closed with the packet's checksum in `crc`, and every
command whose operands are in range is answered `OK`. -/
def Obligations.FrameEmitsExactlyThePacket : Prop :=
  ∀ (s : State) (code : Word) (d : List Byte) (is : List Instr),
    s.remaining = 0#16 → code.toNat ≤ 255 → d.length ≤ 65534 →
    is.filter (fun i => !i.passive) = d.map Instr.pktdata →
    let h := headerBytes code (BitVec.ofNat 16 d.length)
    let k := crcBytes 0xFFFF#16 (h ++ d)
    let cs := Instr.pktstart code (BitVec.ofNat 16 d.length) :: is
    let p := [0x35#8, 0x2E#8, 0xF8#8, 0x53#8] ++ h ++ d ++ [k.extractLsb' 8 8, k.extractLsb' 0 8]
    ∃ t rs, execAll cs s = .next t ∧ t.remaining = 0#16 ∧ t.crc = k ∧
      t.txStream = s.txStream ++ p ∧ t.txQueue = s.txQueue ++ p ∧
      t.rspStream = s.rspStream ++ rs ∧ rs.length = cs.length ∧
      ∀ q ∈ cs.zip rs, q.1.operandsInRange = true → q.2.status = .ok

/-- R143: after a frame has closed, `CRCRD` returns the checksum whose two bytes end the packet. -/
def Obligations.CrcrdAfterAFrameReturnsItsChecksum : Prop :=
  ∀ (s : State) (code : Word) (d : List Byte), s.remaining = 0#16 → code.toNat ≤ 255 → d.length ≤ 65534 →
    ∃ t rs, execAll (packetMacro code d ++ [.crcrd]) s = .next t ∧
      t.txStream = s.txStream ++ packetBytes code d ∧
      t.rspStream = s.rspStream ++ rs ++
        [⟨.ok, (checksum (headerBytes code (BitVec.ofNat 16 d.length) ++ d)).setWidth 48⟩]

/-- R145: the stand-alone commands give the host the same packet: `HDRBLD`'s six bytes and `CRCRD`'s two, around the data, with
nothing on TX. -/
def Obligations.StandAloneCommandsGiveTheSamePacket : Prop :=
  ∀ (s : State) (code : Word) (d : List Byte), s.remaining = 0#16 → code.toNat ≤ 255 → d.length ≤ 65534 →
    ∃ t rs x y,
      execAll ([.hdrbld code (BitVec.ofNat 16 d.length), .crcinit] ++
        ((headerBytes code (BitVec.ofNat 16 d.length) ++ d).map Instr.crcbyte ++ [.crcrd])) s = .next t ∧
      t.rspStream = s.rspStream ++ ⟨.ok, x⟩ :: (rs ++ [⟨.ok, y⟩]) ∧ (∀ r ∈ rs, r = ⟨.ok, 0#48⟩) ∧
      t.txStream = s.txStream ∧
      [0x35#8, 0x2E#8, 0xF8#8, 0x53#8] ++ be x 6 ++ d ++ be (y.setWidth 16) 2 = packetBytes code d

/-- R82, R122, R213: the macro `CHECKSUM` computes the checksum of its bytes from any closed state, whatever `crc` held. -/
def Obligations.ChecksumMacroReturnsTheChecksum : Prop :=
  ∀ (s : State) (bytes : List Byte), s.remaining = 0#16 →
    execAll (checksumMacro bytes) s =
      .next { s with crc := checksum bytes,
                     rspStream := s.rspStream ++ (List.replicate (bytes.length + 1) ⟨.ok, 0#48⟩ ++
                       [⟨.ok, (checksum bytes).setWidth 48⟩]),
                     rspQueue := s.rspQueue ++ (List.replicate (bytes.length + 1) ⟨.ok, 0#48⟩ ++
                       [⟨.ok, (checksum bytes).setWidth 48⟩]) }

/-- R144, R213: what follows an executed `PKTSTART` does not depend on what `crc` held before it. -/
def Obligations.PktstartForgetsTheOldAccumulator : Prop :=
  ∀ (s : State) (v : Word) (code len : Word) (is : List Instr),
    s.remaining = 0#16 → code.toNat ≤ 255 → len.toNat ≤ 65534 →
    execAll (.pktstart code len :: is) { s with crc := v } = execAll (.pktstart code len :: is) s

/-- R204, R205, R214: a host that keeps its duties is never refused, and its frames are closed at the end. -/
def Obligations.DisciplinedHostIsNeverRefused : Prop :=
  ∀ (s : State) (is : List Instr), hostDisciplined s.remaining.toNat is = true →
    ∃ t rs, execAll is s = .next t ∧ t.remaining = 0#16 ∧ t.rspStream = s.rspStream ++ rs ∧ rs.length = is.length ∧
      ∀ r ∈ rs, r.status = .ok

/-! ## Invariants -/

/-- R32, R33: every invariant of Safety.lean holds after reset. -/
def Obligations.ResetStateMeetsTheInvariants : Prop :=
  StreamInv State.reset ∧ PortsInv State.reset ∧ ResponsesInv State.reset ∧ RemainingBounded State.reset

/-- R33, R212: every step keeps the TX stream whole packets and at most one open prefix, over whose header and data `crc` is the
checksum. -/
def Obligations.StepsKeepTheStreamInvariant : Prop :=
  ∀ s t : State, StreamInv s → step s = .next t → StreamInv t

/-- R42, R43: every step keeps what crossed a port, followed by what waits there, equal to what was produced, in order. -/
def Obligations.StepsKeepThePortsInOrder : Prop :=
  ∀ s t : State, PortsInv s → step s = .next t → PortsInv t

/-- R22, R33, R78: every step keeps `remaining <= 0xFFFE`, and data 0 in every error response. -/
def Obligations.StepsKeepRemainingBoundedAndErrorsEmpty : Prop :=
  ∀ s t : State, step s = .next t →
    (RemainingBounded s → RemainingBounded t) ∧ (ResponsesInv s → ResponsesInv t)

/-! ## The host's side -/

/-- R92 to R95: a command of the name gives that variant's data field, for every text whose UTF-8 bytes fit a 2-byte length. The
flag is read in base 16, its digits alone or after `0x`, and a text with a character that is no digit and no `x` is no number. The
model's choices (log entry 11) are that digits may stand alone, `0X`, either case of digits, and that this refusal takes in a text
with a sign, a blank or a separator, which the spec leaves open. What the UTF-8 bytes of a text are is taken from its standard (log
entry 10). -/
def Obligations.TextFieldEncodersAreAsListed : Prop :=
  (∀ ds : List (BitVec 4), ds ≠ [] →
    hexNumber (ds.map nibbleChar) = some (ds.foldl (fun k q => 16 * k + q.toNat) 0) ∧
    hexNumber ('0' :: 'x' :: ds.map nibbleChar) = some (ds.foldl (fun k q => 16 * k + q.toNat) 0)) ∧
  (∀ (t : Text) (c : Char), c ∈ t → hexDigit c = none → c ≠ 'x' → c ≠ 'X' → hexNumber t = none) ∧
  ∀ (P : HostParams) (c : CommandDefinition) (v : FieldValues) (f : Text) (n : Nat) (x y : Text),
    (c.name = "Delete File".toList → valueOf v "Directory Flag".toList = some f → hexNumber f = some n → n < 256 →
      valueOf v "File/Directory Name".toList = some x → (utf8 x).length < 65536 →
      encodeFields P c v = .ok ([BitVec.ofNat 8 n, BitVec.ofNat 8 ((utf8 x).length / 256), BitVec.ofNat 8 (utf8 x).length] ++
        utf8 x)) ∧
    (c.name = "List Files".toList → valueOf v "Directory Path".toList = some x → (utf8 x).length < 65536 →
      encodeFields P c v = .ok ([BitVec.ofNat 8 ((utf8 x).length / 256), BitVec.ofNat 8 (utf8 x).length] ++ utf8 x)) ∧
    (c.name = "Unzip File".toList → valueOf v "ZipFile Name".toList = some x →
      valueOf v "Destination Directory Path".toList = some y → (utf8 x).length < 65536 → (utf8 y).length < 65536 →
      encodeFields P c v = .ok ([BitVec.ofNat 8 ((utf8 x).length / 256), BitVec.ofNat 8 (utf8 x).length,
        BitVec.ofNat 8 ((utf8 y).length / 256), BitVec.ofNat 8 (utf8 y).length] ++ utf8 x ++ utf8 y))

/-- R92, R96: a command named Request File gives 7 bytes; with flag 255 the chunk count is 0 whatever its input holds, or if it is
absent; else the input counts. Integers are read as the open parameter `P.parseInteger` reads them (log entry 12). -/
def Obligations.RequestFileForcesTheChunkCount : Prop :=
  ∀ (P : HostParams) (c : CommandDefinition) (v : FieldValues) (ti tf tx : Text) (i f x : Nat),
    c.name = "Request File".toList →
    valueOf v "Transfer ID".toList = some ti → P.parseInteger ti = some (i : Int) → i < 65536 →
    valueOf v "Transfer Flag".toList = some tf → P.parseInteger tf = some (f : Int) → f < 256 →
    valueOf v "Chunk Index".toList = some tx → P.parseInteger tx = some (x : Int) → x < 65536 →
    (f = 255 → encodeFields P c v =
      .ok [BitVec.ofNat 8 (i / 256), BitVec.ofNat 8 i, 0xFF#8, BitVec.ofNat 8 (x / 256), BitVec.ofNat 8 x, 0#8, 0#8]) ∧
    (f ≠ 255 → ∀ (tk : Text) (k : Nat), valueOf v "Number of Chunks to Transfer".toList = some tk →
      P.parseInteger tk = some (k : Int) → k < 65536 →
      encodeFields P c v = .ok [BitVec.ofNat 8 (i / 256), BitVec.ofNat 8 i, BitVec.ofNat 8 f,
        BitVec.ofNat 8 (x / 256), BitVec.ofNat 8 x, BitVec.ofNat 8 (k / 256), BitVec.ofNat 8 k])

/-- R90, R97, R98, R101: an absent code gives `UnknownCommand` and no command for the block; a name with no encoder of its own
gives the sentinel and reads no field. -/
def Obligations.UnknownCodesFailAndOtherNamesGetTheSentinel : Prop :=
  (∀ (P : HostParams) (code : Int) (v : FieldValues), (∀ d ∈ P.catalog, (d.code.toNat : Int) ≠ code) →
    assemble P code v = .error .unknownCommand ∧ hostCommands P code v = .error .unknownCommand) ∧
  ∀ (P : HostParams) (d : CommandDefinition) (v : FieldValues),
    d.name ∉ ["Delete File".toList, "List Files".toList, "Unzip File".toList, "Request File".toList] →
    encodeFields P d v = .ok [0xDE#8, 0xAD#8, 0xBE#8, 0xEF#8]

/-- R100: the commands the host issues for a request make the block emit exactly `assemble`'s bytes, from any closed state. -/
def Obligations.BlockSendsWhatAssembleReturns : Prop :=
  ∀ (P : HostParams) (code : Int) (v : FieldValues) (bytes : List Byte) (s : State),
    assemble P code v = .ok bytes → s.remaining = 0#16 →
    ∃ is t rs, hostCommands P code v = .ok is ∧ execAll is s = .next t ∧ t.remaining = 0#16 ∧
      t.txStream = s.txStream ++ bytes ∧ t.rspStream = s.rspStream ++ rs ∧ ∀ r ∈ rs, r = ⟨.ok, 0#48⟩

/-- R99: in every catalog the spec allows, the revealed codes select the Delete File, List Files and Request File encoders, and
some code selects the Unzip File encoder. -/
def Obligations.RevealedCodesSelectTheirEncoders : Prop :=
  ∀ P : HostParams, catalogWellFormed P.catalog = true →
    (∃ c, c.name = "Delete File".toList ∧ ∀ v, dataField P 0x42 v = encodeDeleteFile P c v) ∧
    (∀ v, dataField P 0xFE v = encodeListFiles v) ∧
    (∃ c, c.name = "Request File".toList ∧ ∀ v, dataField P 0x16 v = encodeRequestFile P c v) ∧
    ∃ (code : Byte) (c : CommandDefinition), c.name = "Unzip File".toList ∧
      ∀ v, dataField P code.toNat v = encodeUnzipFile P c v

/-- R98: a required input that is absent gives `MissingField` with its name, and one that is not read as a number gives
`InvalidField` with its name and the format expected there; the message at the boundary names both (R105). Where a command with a
hand-written encoder fails (R92), the error is that of an input the command requires; which of several is open (N27, log entry
14). Which spellings of a hexadecimal input are no number is in part the model's choice (log entry 11). -/
def Obligations.FieldErrorsNameTheFieldAndFormat : Prop :=
  (∀ (P : HostParams) (v : FieldValues) (name t : Text) (bytes : Nat),
    (valueOf v name = none →
      hexField v name bytes = .error (.missingField name) ∧ intField P v name bytes = .error (.missingField name) ∧
        textField v name = .error (.missingField name)) ∧
    (valueOf v name = some t → hexNumber t = none →
      hexField v name bytes = .error (.invalidField name (.hex bytes))) ∧
    (valueOf v name = some t → P.parseInteger t = none →
      intField P v name bytes = .error (.invalidField name (.integer bytes))) ∧
    (errorReply P (.missingField name)).kind = .missingField ∧
    (errorReply P (.missingField name)).message.field = some name ∧
    ∀ f : FieldFormat, (errorReply P (.invalidField name f)).kind = .invalidField ∧
      (errorReply P (.invalidField name f)).message.field = some name ∧
      (errorReply P (.invalidField name f)).message.expected = some f) ∧
  ∀ (P : HostParams) (c : CommandDefinition) (v : FieldValues) (e : AssembleError), encodeFields P c v = .error e →
    (c.name = "Delete File".toList ∧
      (hexField v "Directory Flag".toList 1 = .error e ∨ textField v "File/Directory Name".toList = .error e)) ∨
    (c.name = "List Files".toList ∧ textField v "Directory Path".toList = .error e) ∨
    (c.name = "Unzip File".toList ∧
      (textField v "ZipFile Name".toList = .error e ∨ textField v "Destination Directory Path".toList = .error e)) ∨
    (c.name = "Request File".toList ∧
      (intField P v "Transfer ID".toList 2 = .error e ∨ intField P v "Transfer Flag".toList 1 = .error e ∨
        intField P v "Chunk Index".toList 2 = .error e ∨
        (intField P v "Transfer Flag".toList 1 ≠ .ok 255 ∧
          intField P v "Number of Chunks to Transfer".toList 2 = .error e)))

/-- R105, R177: every error status of a response reaches the boundary as an error whose kind has that status code; `OK` is no
error; the host's three kinds have no status code, and there are seven kinds. -/
def Obligations.BlockErrorsReachTheBoundaryAsTheirStatus : Prop :=
  (∀ (P : HostParams) (r : Response),
    (r.status = .ok → responseReply P r = none) ∧
    (r.status ≠ .ok → ∃ q, responseReply P r = some q ∧ kindStatus q.kind = some (statusCode r.status))) ∧
  (∀ k : ErrorKind, kindStatus k = none ↔ k = .unknownCommand ∨ k = .missingField ∨ k = .invalidField) ∧
  ∃ ks : List ErrorKind, ks.Nodup ∧ ks.length = 7 ∧ ∀ k, k ∈ ks

/-- R100, R101: from any closed state, what the host gets back from the block for its commands is `assemble`'s result, the bytes or
the error unchanged. Where the host has no data field to hand on, `assemble` fails with the same error and there is no command:
either the lookup or the encoder failed, or the data field is well encoded and longer than 65535 bytes, whose refusal with an open
error is the model's choice (log entry 16). -/
def Obligations.HostResultIsAssemblesResult : Prop :=
  ∀ (P : HostParams) (code : Int) (v : FieldValues) (s : State), s.remaining = 0#16 →
    (∀ e, handedData P code v = .error e → assemble P code v = .error e ∧ hostCommands P code v = .error e) ∧
    (∀ data, handedData P code v = .ok data →
      ∃ is t, hostCommands P code v = .ok is ∧ execAll is s = .next t ∧ hostResult s t = assemble P code v)

/-- R81: a command written in the assembler syntax is read back as itself. -/
def Obligations.AssemblerReadsWhatItWrites : Prop := ∀ i : Instr, asmLine (showInstr i) = some [i]
end

