-- ==== Sys2Proof/Laws/Decode.lean ====
section
/-! SUPPORT. The command word by its three fields, and the decoder's one spec lemma, `decode_packWord`. -/

namespace Sys2Proof.Machine

theorem opField_packWord (op : Byte) (a b : Word) : opField (packWord op a b) = op := by
  apply BitVec.eq_of_getLsbD_eq
  intro i hi
  rw [opField, packWord, BitVec.getLsbD_extractLsb', BitVec.getLsbD_append, BitVec.getLsbD_append]
  simp [hi, show ¬ 32 + i < 16 by omega, show ¬ 32 + i - 16 < 16 by omega, show 32 + i - 16 - 16 = i by omega]

theorem aField_packWord (op : Byte) (a b : Word) : aField (packWord op a b) = a := by
  apply BitVec.eq_of_getLsbD_eq
  intro i hi
  rw [aField, packWord, BitVec.getLsbD_extractLsb', BitVec.getLsbD_append, BitVec.getLsbD_append]
  simp [hi]

theorem bField_packWord (op : Byte) (a b : Word) : bField (packWord op a b) = b := by
  apply BitVec.eq_of_getLsbD_eq
  intro i hi
  rw [bField, packWord, BitVec.getLsbD_extractLsb', BitVec.getLsbD_append, BitVec.getLsbD_append]
  simp [hi]

theorem byteField_packWord (op : Byte) (a b : Word) : byteField (packWord op a b) = b.setWidth 8 := by
  apply BitVec.eq_of_getLsbD_eq
  intro i hi
  rw [byteField, packWord, BitVec.getLsbD_extractLsb', BitVec.getLsbD_append]
  simp [hi, show i < 16 by omega]

/-- A word is what its three fields pack to (R70). -/
theorem packWord_fields (w : CommandWord) : packWord (opField w) (aField w) (bField w) = w := by
  apply BitVec.eq_of_getLsbD_eq
  intro i hi
  simp only [packWord, opField, aField, bField, BitVec.getLsbD_append, BitVec.getLsbD_extractLsb']
  by_cases h1 : i < 16
  · simp [h1]
  · by_cases h2 : i < 32
    · simp [h1, show i - 16 < 16 by omega, show 16 + (i - 16) = i by omega]
    · simp [h1, show ¬ i - 16 < 16 by omega, show i - 16 - 16 < 8 by omega, show 32 + (i - 16 - 16) = i by omega]

/-- To show something of every word, show it of every packed word. -/
theorem forall_packWord {p : CommandWord → Prop} (h : ∀ op a b, p (packWord op a b)) : ∀ w, p w := by
  intro w
  rw [← packWord_fields w]
  exact h _ _ _

theorem packWord_inj (op x : Byte) (a b y z : Word) : packWord op a b = packWord x y z ↔ op = x ∧ a = y ∧ b = z := by
  constructor
  · intro h
    exact ⟨by simpa [opField_packWord] using congrArg opField h, by simpa [aField_packWord] using congrArg aField h,
      by simpa [bField_packWord] using congrArg bField h⟩
  · rintro ⟨rfl, rfl, rfl⟩
    rfl

theorem packWord_and (op p : Byte) (a b q r : Word) : packWord op a b &&& packWord p q r = packWord (op &&& p) (a &&& q) (b &&& r) := by
  apply BitVec.eq_of_getLsbD_eq
  intro i hi
  simp only [packWord, BitVec.getLsbD_and, BitVec.getLsbD_append]
  split <;> try split
  all_goals rfl

/-- A row of format Z matches its opcode with no operand (R71, R74). -/
theorem matchesWord_formatZ (op : Byte) (a b : Word) (k : Byte) (m : CommandWord) (hm : m = packWord k 0#16 0#16) :
    (OpcodeRow.matchesWord ⟨m, 0xFFFFFFFFFF#40⟩ (packWord op a b)) = (decide (op = k) && decide (a = 0#16) && decide (b = 0#16)) := by
  rw [Bool.eq_iff_iff]
  simp only [OpcodeRow.matchesWord, hm, show 0xFFFFFFFFFF#40 = packWord 0xFF#8 0xFFFF#16 0xFFFF#16 by decide, packWord_and,
    beq_iff_eq, packWord_inj, Bool.and_eq_true, decide_eq_true_eq, and_assoc]
  have h1 : op &&& 0xFF#8 = op := BitVec.and_allOnes
  have h2 : a &&& 0xFFFF#16 = a := BitVec.and_allOnes
  have h3 : b &&& 0xFFFF#16 = b := BitVec.and_allOnes
  rw [h1, h2, h3]

theorem highByte_zero (b : Word) : b &&& 0xFF00#16 = 0#16 ↔ b.toNat / 256 = 0 := by
  have hb : b &&& 0xFF00#16 = 0#16 ↔ b >>> 8 = 0#16 := by
    constructor
    · intro h
      apply BitVec.eq_of_getLsbD_eq
      intro i hi
      rw [BitVec.getLsbD_ushiftRight]
      by_cases hh : 8 + i < 16
      · have := congrArg (fun x => x.getLsbD (8 + i)) h
        simp only [BitVec.getLsbD_and] at this
        have h2 : (0xFF00#16).getLsbD (8 + i) = true := by
          have : i < 8 := by omega
          interval_cases i <;> rfl
        simpa [h2] using this
      · simp [BitVec.getLsbD_of_ge b (8+i) (by omega)]
    · intro h
      apply BitVec.eq_of_getLsbD_eq
      intro i hi
      rw [BitVec.getLsbD_and]
      by_cases hh : i < 8
      · have h2 : (0xFF00#16).getLsbD i = false := by interval_cases i <;> rfl
        simp [h2]
      · have := congrArg (fun x => x.getLsbD (i - 8)) h
        simp only [BitVec.getLsbD_ushiftRight, show 8 + (i - 8) = i by omega] at this
        simp [this]
  rw [hb]
  constructor
  · intro h; simpa [Nat.shiftRight_eq_div_pow] using congrArg BitVec.toNat h
  · intro h; apply BitVec.eq_of_toNat_eq; simpa [Nat.shiftRight_eq_div_pow] using h

/-- A row of format B matches its opcode with a byte operand (R71, R74). -/
theorem matchesWord_formatB (op : Byte) (a b : Word) (k : Byte) (m : CommandWord) (hm : m = packWord k 0#16 0#16) :
    (OpcodeRow.matchesWord ⟨m, 0xFFFFFFFF00#40⟩ (packWord op a b)) = (decide (op = k) && decide (a = 0#16) && decide (b.toNat / 256 = 0)) := by
  rw [Bool.eq_iff_iff]
  simp only [OpcodeRow.matchesWord, hm, show 0xFFFFFFFF00#40 = packWord 0xFF#8 0xFFFF#16 0xFF00#16 by decide, packWord_and,
    beq_iff_eq, packWord_inj, Bool.and_eq_true, decide_eq_true_eq, and_assoc]
  have h1 : op &&& 0xFF#8 = op := BitVec.and_allOnes
  have h2 : a &&& 0xFFFF#16 = a := BitVec.and_allOnes
  rw [h1, h2, highByte_zero]

/-- A row of format CL matches its opcode with any operands (R71, R74). -/
theorem matchesWord_formatCL (op : Byte) (a b : Word) (k : Byte) (m : CommandWord) (hm : m = packWord k 0#16 0#16) :
    (OpcodeRow.matchesWord ⟨m, 0xFF00000000#40⟩ (packWord op a b)) = decide (op = k) := by
  rw [Bool.eq_iff_iff]
  simp only [OpcodeRow.matchesWord, hm, show 0xFF00000000#40 = packWord 0xFF#8 0#16 0#16 by decide, packWord_and,
    beq_iff_eq, packWord_inj, decide_eq_true_eq]
  have h1 : op &&& 0xFF#8 = op := BitVec.and_allOnes
  rw [h1]; simp

/-- The decoder by the fields of the word (R71, R73, R74, R75). -/
theorem decode_packWord (op : Byte) (a b : Word) : decode (packWord op a b) =
   if op = 0#8 ∧ a = 0#16 ∧ b = 0#16 then .ok .nop
   else if op = 1#8 ∧ a = 0#16 ∧ b = 0#16 then .ok .crcinit
   else if op = 2#8 ∧ a = 0#16 ∧ b.toNat / 256 = 0 then .ok (.crcbyte (b.setWidth 8))
   else if op = 3#8 ∧ a = 0#16 ∧ b = 0#16 then .ok .crcrd
   else if op = 4#8 then .ok (.hdrbld a b)
   else if op = 5#8 then .ok (.pktstart a b)
   else if op = 6#8 ∧ a = 0#16 ∧ b.toNat / 256 = 0 then .ok (.pktdata (b.setWidth 8))
   else if op.toNat ≤ 6 then .error (.reservedBitSet op) else .error (.undefinedOpcode op) := by
  have e0 : rowNop.matchesWord (packWord op a b) = _ := matchesWord_formatZ op a b 0#8 0x0000000000#40 (by decide)
  have e1 : rowCrcinit.matchesWord (packWord op a b) = _ := matchesWord_formatZ op a b 1#8 0x0100000000#40 (by decide)
  have e2 : rowCrcbyte.matchesWord (packWord op a b) = _ := matchesWord_formatB op a b 2#8 0x0200000000#40 (by decide)
  have e3 : rowCrcrd.matchesWord (packWord op a b) = _ := matchesWord_formatZ op a b 3#8 0x0300000000#40 (by decide)
  have e4 : rowHdrbld.matchesWord (packWord op a b) = _ := matchesWord_formatCL op a b 4#8 0x0400000000#40 (by decide)
  have e5 : rowPktstart.matchesWord (packWord op a b) = _ := matchesWord_formatCL op a b 5#8 0x0500000000#40 (by decide)
  have e6 : rowPktdata.matchesWord (packWord op a b) = _ := matchesWord_formatB op a b 6#8 0x0600000000#40 (by decide)
  simp only [decode, e0, e1, e2, e3, e4, e5, e6, opField_packWord, aField_packWord, bField_packWord, byteField_packWord, Bool.and_eq_true, decide_eq_true_eq, and_assoc]

/-- The reserved half of a byte operand is 0 (R71). -/
theorem byteOperand_high (x : Byte) : (byteOperand x).toNat / 256 = 0 := by
  have := x.isLt
  simp only [byteOperand, BitVec.toNat_setWidth]
  omega
theorem byteOperand_low (x : Byte) : (byteOperand x).setWidth 8 = x := by
  simp [byteOperand]

end Sys2Proof.Machine
end

