-- ==== Sys2Proof/Laws/Exec.lean ====
section
/-! SUPPORT. What a command can do, said once: `exec` answers a next state, which is either the state with one error response or
the command's effect. -/

namespace Sys2Proof.Machine

/-- The error a command raises in a state, the first that applies (R175 without the illegal words). -/
def commandError (i : Instr) (s : State) : Option Status :=
  if allowedIn i (inFrame s) then
    match i with
    | .nop => none
    | .crcinit => none
    | .crcbyte _ => none
    | .crcrd => none
    | .hdrbld code dataLen =>
      if codeTooBig code then some .invalidCode else if lengthTooBig dataLen then some .lengthOverflow else none
    | .pktstart code dataLen =>
      if codeTooBig code then some .invalidCode else if lengthTooBig dataLen then some .lengthOverflow else none
    | .pktdata _ => none
  else some .protocolError

/-- What an executed command does. -/
def commandEffect (i : Instr) (s : State) : State :=
  match i with
  | .nop => respond .ok 0#48 s
  | .crcinit => respond .ok 0#48 (setCrc Config.crcInit s)
  | .crcbyte x => respond .ok 0#48 (setCrc (crcByte s.crc x) s)
  | .crcrd => respond .ok (s.crc.setWidth 48) s
  | .hdrbld code dataLen => respond .ok (hdr48 code dataLen) s
  | .pktstart code dataLen =>
    let k := crcBytes Config.crcInit (headerBytes code dataLen)
    respond .ok 0#48 (setRemaining dataLen (setCrc k
      (emit (syncBytes ++ headerBytes code dataLen ++ trailerIf (dataLen == 0#16) k) s)))
  | .pktdata x =>
    let k := crcByte s.crc x
    respond .ok 0#48 (setRemaining (s.remaining - 1#16) (setCrc k
      (emit ([x] ++ trailerIf (s.remaining == 1#16) k) s)))

/-- The state after a command. -/
def afterCommand (i : Instr) (s : State) : State :=
  match commandError i s with
  | some e => respond e 0#48 s
  | none => commandEffect i s

/-- The one spec lemma of `exec`: it answers the state after the command, for every command and state. -/
theorem exec_eq_next (i : Instr) (s : State) : exec i s = .next (afterCommand i s) := by
  cases i <;>
    simp only [exec, execNop, execCrcinit, execCrcbyte, execCrcrd, execHdrbld, execPktstart, execPktdata, afterCommand,
      commandError, commandEffect, allowedIn, raiseError] <;>
    cases inFrame s <;> simp <;> split <;> try (split <;> simp_all)

/-- No command ends in `Status.ok` as its error. -/
theorem commandError_ne_ok (i : Instr) (s : State) : commandError i s ≠ some .ok := by
  cases i <;> simp only [commandError] <;> repeat' split
  all_goals simp

end Sys2Proof.Machine
end

