-- ==== Sys2Proof/Laws/Host.lean ====
section
/-! SUPPORT. The host's side: one lemma per input reader, on an input that is present and fits, and what a successful header or
data field says. -/

namespace Sys2Proof.Machine

/-- The two bytes of a number that fits them. -/
theorem be16_eq (n : Nat) (h : n < 65536) : be16 n = [BitVec.ofNat 8 (n / 256), BitVec.ofNat 8 n] := by
  simp only [be16, be, List.range, List.range.loop, List.map]
  congr 1
  · apply BitVec.eq_of_toNat_eq; simp [Nat.shiftRight_eq_div_pow]; omega
  · congr 1; apply BitVec.eq_of_toNat_eq; simp

/-- A number that fits is itself. -/
theorem fitting_ok (name : Text) (f : FieldFormat) (n : Nat) (h : n < formatLimit f) :
    fitting name f (some (n : Int)) = .ok n := by
  have h2 : (0 : Int) ≤ n ∧ (n : Int) < formatLimit f := by omega
  simp only [fitting, if_pos h2, Int.toNat_natCast]

/-- A text input that fits a 2-byte length. -/
theorem textField_ok (v : FieldValues) (name t : Text) (h : valueOf v name = some t) (hl : (utf8 t).length < 65536) :
    textField v name = .ok (utf8 t) := by
  simp only [textField, h]
  exact if_pos hl

/-- An integer input that fits. -/
theorem intField_ok (P : HostParams) (v : FieldValues) (name t : Text) (bytes n : Nat) (h : valueOf v name = some t)
    (hp : P.parseInteger t = some (n : Int)) (hn : n < 2 ^ (8 * bytes)) : intField P v name bytes = .ok n := by
  simp only [intField, h, hp, fitting_ok name (.integer bytes) n hn]

/-- A hexadecimal input that fits. -/
theorem hexField_ok (v : FieldValues) (name t : Text) (bytes n : Nat) (h : valueOf v name = some t)
    (hp : hexNumber t = some n) (hn : n < 2 ^ (8 * bytes)) : hexField v name bytes = .ok n := by
  simp only [hexField, h, hp, Option.map_some, Int.ofNat_eq_natCast, fitting_ok name (.hex bytes) n hn]

/-- The error of a field is its own. -/
theorem mem_errorOf {α : Type} (x : Except AssembleError α) (e : AssembleError) : e ∈ errorOf x ↔ x = .error e := by
  cases x <;> simp [errorOf, eq_comm]

/-- The error reported is one of those that apply (N27). -/
theorem reportOne_mem (P : HostParams) (d : CommandDefinition) (v : FieldValues) (es : List AssembleError) (h : es ≠ []) :
    reportOne P d v es ∈ es := by
  rw [reportOne, List.getD_eq_getElem _ _ (Nat.mod_lt _ (List.length_pos_of_ne_nil h))]
  exact List.getElem_mem _

/-- A hexadecimal input that cannot be parsed (R98). -/
theorem hexField_invalid (v : FieldValues) (name t : Text) (bytes : Nat) (h : valueOf v name = some t)
    (hp : hexNumber t = none) : hexField v name bytes = .error (.invalidField name (.hex bytes)) := by
  simp only [hexField, h, hp, Option.map_none, fitting]

/-- The chunk count with the flag 255: 0, its input unread (R96). -/
theorem chunkCount_forced (P : HostParams) (v : FieldValues) : chunkCount P v (.ok 255) = .ok 0 := rfl

/-- The chunk count with another flag (R96). -/
theorem chunkCount_required (P : HostParams) (v : FieldValues) (f : Nat) (h : f ≠ 255) :
    chunkCount P v (.ok f) = intField P v "Number of Chunks to Transfer".toList 2 := by
  rw [chunkCount]
  simpa using h

/-- The encoder a name selects, one lemma per name (R92, R97). -/
theorem encodeFields_deleteFile (P : HostParams) (d : CommandDefinition) (v : FieldValues)
    (h : d.name = "Delete File".toList) : encodeFields P d v = encodeDeleteFile P d v := by
  rw [encodeFields, if_pos h]

theorem encodeFields_listFiles (P : HostParams) (d : CommandDefinition) (v : FieldValues)
    (h : d.name = "List Files".toList) : encodeFields P d v = encodeListFiles v := by
  rw [encodeFields, if_neg (by rw [h]; decide), if_pos h]

theorem encodeFields_unzipFile (P : HostParams) (d : CommandDefinition) (v : FieldValues)
    (h : d.name = "Unzip File".toList) : encodeFields P d v = encodeUnzipFile P d v := by
  rw [encodeFields, if_neg (by rw [h]; decide), if_neg (by rw [h]; decide), if_pos h]

theorem encodeFields_requestFile (P : HostParams) (d : CommandDefinition) (v : FieldValues)
    (h : d.name = "Request File".toList) : encodeFields P d v = encodeRequestFile P d v := by
  rw [encodeFields, if_neg (by rw [h]; decide), if_neg (by rw [h]; decide), if_neg (by rw [h]; decide), if_pos h]

/-- The data field handed on is the encoder's, short enough for the length operand (R101). -/
theorem handedData_eq_ok (P : HostParams) (code : Int) (v : FieldValues) (data : List Byte) :
    handedData P code v = .ok data ↔ dataField P code v = .ok data ∧ data.length < 65536 := by
  unfold handedData
  cases dataField P code v with
  | error r => simp
  | ok e =>
    by_cases h : e.length < 2 ^ 16
    · simp only [h, if_true, Except.ok.injEq]
      exact ⟨fun he => ⟨he, he ▸ h⟩, fun he => he.1⟩
    · simp only [h, if_false, Except.ok.injEq, reduceCtorEq, false_iff, not_and]
      rintro rfl; exact h

/-- A catalog that lists no code twice finds each of its definitions under its code (R90). -/
theorem lookupCommand_mem (cat : Catalog) (d : CommandDefinition) (h : (cat.map (·.code)).Nodup) (hd : d ∈ cat) :
    lookupCommand cat d.code.toNat = some d := by
  induction cat with
  | nil => simp at hd
  | cons e cat ih =>
    rw [List.map_cons, List.nodup_cons] at h
    rcases List.mem_cons.1 hd with rfl | hd
    · simp [lookupCommand]
    · have hne : e.code ≠ d.code := fun he => h.1 (he ▸ List.mem_map_of_mem hd)
      have hne' : ((e.code.toNat : Int) == d.code.toNat) = false := by
        simpa using fun he => hne (BitVec.eq_of_toNat_eq he)
      rw [lookupCommand, List.find?_cons, hne']
      exact ih h.2 hd

/-- What a catalog the spec allows holds (R90, R99). -/
theorem catalogWellFormed_nodup (cat : Catalog) (h : catalogWellFormed cat = true) : (cat.map (·.code)).Nodup := by
  unfold catalogWellFormed at h
  exact of_decide_eq_true (Bool.and_eq_true_iff.1 h).1

theorem catalogWellFormed_revealed (cat : Catalog) (h : catalogWellFormed cat = true) (code : Byte) (name : Text)
    (hk : (code, name) ∈ revealedCommands) : ∃ d ∈ cat, d.code = code ∧ d.name = name := by
  unfold catalogWellFormed catalogHoldsRevealed at h
  have h1 := List.all_eq_true.1 (Bool.and_eq_true_iff.1 (Bool.and_eq_true_iff.1 h).2).1 _ hk
  obtain ⟨d, hd, h2⟩ := List.any_eq_true.1 h1
  obtain ⟨h3, h4⟩ := Bool.and_eq_true_iff.1 h2
  exact ⟨d, hd, eq_of_beq h3, eq_of_beq h4⟩

theorem catalogWellFormed_codeless (cat : Catalog) (h : catalogWellFormed cat = true) :
    ∃ d ∈ cat, d.name = codelessCommand := by
  unfold catalogWellFormed catalogHoldsRevealed at h
  obtain ⟨d, hd, h2⟩ := List.any_eq_true.1 (Bool.and_eq_true_iff.1 (Bool.and_eq_true_iff.1 h).2).2
  exact ⟨d, hd, eq_of_beq h2⟩

/-- The data field of a definition the catalog finds (R100). -/
theorem dataField_of_lookup (P : HostParams) (code : Int) (d : CommandDefinition) (v : FieldValues)
    (h : lookupCommand P.catalog code = some d) : dataField P code v = encodeFields P d v := by
  simp only [dataField, h]

/-- The first error among responses, one response at a time (R100). -/
theorem findSome_blockError_cons (r : Response) (rs : List Response) :
    (r :: rs).findSome? (fun q => blockError q.status) =
      match blockError r.status with
      | some e => some e
      | none => rs.findSome? (fun q => blockError q.status) := by
  rw [List.findSome?_cons]
  cases blockError r.status <;> rfl

end Sys2Proof.Machine
end

