-- ==== Sys2Proof/Laws/PerInstr.lean ====
section
/-! SUPPORT. Facts about every command as syntax, one lemma per constructor. -/

namespace Sys2Proof.Laws.EncodingShape

open Sys2Proof.Machine

/-- The encoded word carries the command's opcode in `op` and is a legal word (R70, R74, R75). -/
def Statement (i : Instr) : Prop := opField (encode i) = opcodeOf i ∧ wordWellFormed (encode i) = true

theorem nop : Statement .nop := by unfold Statement; decide
theorem crcinit : Statement .crcinit := by unfold Statement; decide
theorem crcrd : Statement .crcrd := by unfold Statement; decide

theorem crcbyte (byte : Byte) : Statement (.crcbyte byte) := by
  refine ⟨opField_packWord _ _ _, ?_⟩
  revert byte
  decide

theorem pktdata (byte : Byte) : Statement (.pktdata byte) := by
  refine ⟨opField_packWord _ _ _, ?_⟩
  revert byte
  decide

theorem hdrbld (code dataLen : Word) : Statement (.hdrbld code dataLen) := by
  refine ⟨opField_packWord _ _ _, ?_⟩
  simp [wordWellFormed, opcodeDefined, reservedBitsZero, encode, opField_packWord, opcodeOf, formatOf]

theorem pktstart (code dataLen : Word) : Statement (.pktstart code dataLen) := by
  refine ⟨opField_packWord _ _ _, ?_⟩
  simp [wordWellFormed, opcodeDefined, reservedBitsZero, encode, opField_packWord, opcodeOf, formatOf]

end Sys2Proof.Laws.EncodingShape
end

