-- ==== Sys2Proof/Laws/Run.lean ====
section
/-! SUPPORT. Runs of the machine and sequences of commands, one at a time. -/

namespace Sys2Proof.Machine

/-- A run of any machine whose first step answers a next state goes on from there. -/
theorem run_succ (M : Host.Core) (k : Nat) (s t : M.State) (h : M.step s = .next t) : M.run (k + 1) s = M.run k t := by
  simp [Host.Core.run, h]

/-- The same of this machine. -/
theorem run_core_succ (k : Nat) (s t : State) (h : step s = .next t) :
    Host.Core.run Sys2Proof.core (k + 1) s = Host.Core.run Sys2Proof.core k t :=
  run_succ Sys2Proof.core k s t h

/-- A command sequence goes on from the state after its first command. -/
theorem execAll_cons (i : Instr) (is : List Instr) (s : State) :
    execAll (i :: is) s = execAll is (afterCommand i s) := by
  rw [execAll, exec_eq_next]

@[simp] theorem execAll_nil (s : State) : execAll [] s = .next s := rfl

end Sys2Proof.Machine
end

