-- ==== Sys2Proof/Laws/Text.lean ====
section
/-! SUPPORT. The hexadecimal digits that the model writes, as the assembler reads them, and a line with two operands. -/

namespace Sys2Proof.Machine

/-- A digit is neither a blank, a comma nor a semicolon, and reads as its nibble. -/
theorem nibbleChar_reads (v : BitVec 4) :
    hexDigit (nibbleChar v) = some v.toNat ∧ isBlank (nibbleChar v) = false ∧ nibbleChar v ≠ ',' ∧ nibbleChar v ≠ ';' := by
  revert v; decide

/-- A byte in hexadecimal, digit by digit. -/
theorem hexText_byte (x : Byte) :
    hexText x 2 = ['0', 'x', nibbleChar (x.extractLsb' 4 4), nibbleChar (x.extractLsb' 0 4)] := rfl

/-- A word in hexadecimal, digit by digit. -/
theorem hexText_word (x : Word) :
    hexText x 4 = ['0', 'x', nibbleChar (x.extractLsb' 12 4), nibbleChar (x.extractLsb' 8 4),
      nibbleChar (x.extractLsb' 4 4), nibbleChar (x.extractLsb' 0 4)] := rfl

/-- Four digits read as the number they write. -/
theorem prefixedHex_digits (a b c d : BitVec 4) :
    prefixedHex ['0', 'x', nibbleChar a, nibbleChar b, nibbleChar c, nibbleChar d] =
      some (16 * (16 * (16 * a.toNat + b.toNat) + c.toNat) + d.toNat) := by
  simp [prefixedHex, digitsValue, digitsFrom, (nibbleChar_reads a).1, (nibbleChar_reads b).1, (nibbleChar_reads c).1,
    (nibbleChar_reads d).1]

/-- A word's digits read as the word. -/
theorem prefixedHex_word (x : Word) : prefixedHex (hexText x 4) = some x.toNat := by
  rw [hexText_word, prefixedHex_digits]
  have := x.isLt
  simp only [BitVec.extractLsb'_toNat, Nat.shiftRight_eq_div_pow, Option.some.injEq]
  omega

/-- Digits of nibbles read as the number they write, going on from `acc`. -/
theorem digitsFrom_nibbles (ds : List (BitVec 4)) (acc : Nat) :
    digitsFrom 16 hexDigit acc (ds.map nibbleChar) = some (ds.foldl (fun k q => 16 * k + q.toNat) acc) := by
  induction ds generalizing acc with
  | nil => rfl
  | cons q ds ih => simp only [List.map_cons, digitsFrom, (nibbleChar_reads q).1, ih, List.foldl_cons]

/-- A character that is no digit makes a text no number. -/
theorem digitsFrom_none (base : Nat) (digit : Char → Option Nat) (t : Text) (acc : Nat) (c : Char) (hc : c ∈ t)
    (hd : digit c = none) : digitsFrom base digit acc t = none := by
  induction t generalizing acc with
  | nil => simp at hc
  | cons e t ih =>
    rw [digitsFrom]
    rcases List.mem_cons.1 hc with rfl | hc
    · rw [hd]
    · cases digit e with
      | none => rfl
      | some v => exact ih _ hc

/-- A line without a comment. -/
theorem takeWhile_no_comment (t : Text) (h : ∀ c ∈ t, c ≠ ';') : t.takeWhile (· != ';') = t := by
  rw [List.takeWhile_eq_self_iff]; simpa using h

/-- A text that begins and ends with no blank. -/
theorem trim_eq_self (t : Text) (a b : Char) (ha : isBlank a = false) (hb : isBlank b = false) :
    trim (a :: (t ++ [b])) = a :: (t ++ [b]) := by
  simp [trim, List.dropWhile, ha, hb]

theorem trim_blank (t : Text) : trim (' ' :: t) = trim t := by
  simp [trim, List.dropWhile, show isBlank ' ' = true from rfl]

/-- The mnemonic of a line, and what follows it. -/
theorem takeWhile_mnemonic (m t : Text) (h : ∀ c ∈ m, isBlank c = false) :
    (m ++ ' ' :: t).takeWhile (fun c => !isBlank c) = m := by
  rw [List.takeWhile_append_of_pos (by simpa using h)]; simp [List.takeWhile, show isBlank ' ' = true from rfl]

theorem dropWhile_mnemonic (m t : Text) (h : ∀ c ∈ m, isBlank c = false) :
    (m ++ ' ' :: t).dropWhile (fun c => !isBlank c) = ' ' :: t := by
  rw [List.dropWhile_append_of_pos (by simpa using h)]; simp [List.dropWhile, show isBlank ' ' = true from rfl]

/-- Parts without a comma. -/
theorem splitCommas_none (t : Text) (h : ∀ c ∈ t, c ≠ ',') : splitCommas t = [t] := by
  induction t with
  | nil => rfl
  | cons c t ih =>
    rw [splitCommas, ih (fun c hc => h c (by simp [hc]))]
    simp [h c (by simp)]

theorem splitCommas_one (t u : Text) (h : ∀ c ∈ t, c ≠ ',') (h2 : ∀ c ∈ u, c ≠ ',') :
    splitCommas (t ++ ',' :: u) = [t, u] := by
  induction t with
  | nil => simp [splitCommas, splitCommas_none u h2]
  | cons c t ih =>
    rw [List.cons_append, splitCommas, ih (fun c hc => h c (by simp [hc]))]
    simp [h c (by simp)]

/-- The characters of a hexadecimal word. -/
theorem hexText_chars (x : Word) : ∀ c ∈ hexText x 4, isBlank c = false ∧ c ≠ ',' ∧ c ≠ ';' := by
  rw [hexText_word]
  intro c hc
  simp only [List.mem_cons, List.not_mem_nil, or_false] at hc
  rcases hc with rfl | rfl | rfl | rfl | rfl | rfl
  · decide
  · decide
  all_goals exact (nibbleChar_reads _).2

theorem hexText_ends (x : Word) : ∃ t b, hexText x 4 = '0' :: (t ++ [b]) ∧ isBlank b = false :=
  ⟨['x', nibbleChar (x.extractLsb' 12 4), nibbleChar (x.extractLsb' 8 4), nibbleChar (x.extractLsb' 4 4)],
    nibbleChar (x.extractLsb' 0 4), rfl, (nibbleChar_reads _).2.1⟩

/-- A line of a mnemonic and two hexadecimal words. -/
theorem asmLine_two_words (m : Text) (a : Char) (m' : Text) (hm : m = a :: m')
    (h : ∀ c ∈ m, isBlank c = false ∧ c ≠ ';') (x y : Word) :
    asmLine (m ++ ' ' :: (hexText x 4 ++ ',' :: ' ' :: hexText y 4)) =
      asmOperation m [x.toNat, y.toNat] [] := by
  obtain ⟨tx, bx, ex, hx⟩ := hexText_ends x
  obtain ⟨ty, b, ey, hy⟩ := hexText_ends y
  have h1 : (m ++ ' ' :: (hexText x 4 ++ ',' :: ' ' :: hexText y 4)).takeWhile (· != ';') = _ :=
    takeWhile_no_comment _ (by
      intro c hc
      simp only [List.mem_append, List.mem_cons] at hc
      rcases hc with hc | rfl | hc | rfl | rfl | hc
      · exact (h c hc).2
      · decide
      · exact (hexText_chars x c hc).2.2
      · decide
      · decide
      · exact (hexText_chars y c hc).2.2)
  have h2 : trim (m ++ ' ' :: (hexText x 4 ++ ',' :: ' ' :: hexText y 4)) =
      m ++ ' ' :: (hexText x 4 ++ ',' :: ' ' :: hexText y 4) := by
    rw [hm, ey]
    simpa using trim_eq_self (m' ++ ' ' :: (hexText x 4 ++ ',' :: ' ' :: '0' :: ty)) a b (h a (by simp [hm])).1 hy
  have h3 : trim (' ' :: (hexText x 4 ++ ',' :: ' ' :: hexText y 4)) = hexText x 4 ++ ',' :: ' ' :: hexText y 4 := by
    rw [trim_blank, ex, ey]
    simpa using trim_eq_self (tx ++ bx :: ',' :: ' ' :: '0' :: ty) '0' b (by decide) hy
  have h4 : splitCommas (hexText x 4 ++ ',' :: ' ' :: hexText y 4) = [hexText x 4, ' ' :: hexText y 4] := by
    refine splitCommas_one _ _ (fun c hc => (hexText_chars x c hc).2.1) fun c hc => ?_
    rcases List.mem_cons.1 hc with rfl | hc
    · decide
    · exact (hexText_chars y c hc).2.1
  have ux : trim (hexText x 4) = hexText x 4 := by rw [ex]; exact trim_eq_self _ _ _ (by decide) hx
  have uy : trim (' ' :: hexText y 4) = hexText y 4 := by rw [trim_blank, ey]; exact trim_eq_self _ _ _ (by decide) hy
  have e1 : (m ++ ' ' :: (hexText x 4 ++ ',' :: ' ' :: hexText y 4)).isEmpty = false := by simp [hm]
  have e2 : (hexText x 4 ++ ',' :: ' ' :: hexText y 4).isEmpty = false := by rw [ex]; rfl
  have h5 : asmOperands (hexText x 4 ++ ',' :: ' ' :: hexText y 4) = some [x.toNat, y.toNat] := by
    simp only [asmOperands, e2, Bool.false_eq_true, if_false, h4, asmNumbers, ux, uy, asmNumber, prefixedHex_word]
  have h6 : (m ++ ' ' :: (hexText x 4 ++ ',' :: ' ' :: hexText y 4)).dropWhile (· != ';') = [] := by
    have := List.takeWhile_append_dropWhile (p := (· != ';')) (l := m ++ ' ' :: (hexText x 4 ++ ',' :: ' ' :: hexText y 4))
    rw [h1] at this
    simpa using this
  have hb := fun c hc => (h c hc).1
  rw [asmLine]
  simp only [h1, h2, h6, e1, dropWhile_mnemonic _ _ hb, h3, takeWhile_mnemonic _ _ hb, Bool.false_eq_true, if_false, h5,
    List.drop_nil, List.takeWhile_nil]

end Sys2Proof.Machine
end

