-- ==== Sys2Proof/Tests/Slice0.lean ====
section
/-! SUPPORT. Tests: the checks of WellFormed.lean refuse ill-formed terms; words written out from the spec's encodings decode to
their commands; vectors of spec/95_test_vectors.md, one step each; and a witness for the hypotheses of every statement that has
some. Expected values come from the spec. -/

namespace Sys2Proof.Tests

open Sys2Proof Sys2Proof.Machine

/-- A state by its two registers, with empty streams. -/
def stateAt (k m : Word) : State := { State.reset with crc := k, remaining := m }

/-- Registers, TX stream and responses after one command. -/
def seen (r : Result) : Option (Word × Word × List Byte × List Response) :=
  match r with
  | .next t => some (t.crc, t.remaining, t.txStream, t.rspStream)
  | .fault _ => none
  | .refused _ => none

/-! ## WellFormed: an ill-formed term for each check -/

theorem test_wf_opcode_refused : opcodeDefined 0x0700000000#40 = false := by decide
theorem test_wf_reserved_z_refused : reservedBitsZero 0x0100010000#40 = false := by decide
theorem test_wf_reserved_b_refused : reservedBitsZero 0x0200000100#40 = false := by decide
theorem test_wf_word_refused : wordWellFormed 0xFFFFFFFFFF#40 = false := by decide
theorem test_wf_word_accepted : wordWellFormed 0x04FFFFFFFF#40 = true := by decide
theorem test_wf_code_refused : (Instr.hdrbld 0x100#16 0#16).operandsInRange = false := by decide
theorem test_wf_length_refused : (Instr.pktstart 0xFF#16 0xFFFF#16).operandsInRange = false := by decide
theorem test_wf_operands_accepted : (Instr.pktstart 0xFF#16 0xFFFE#16).operandsInRange = true := by decide
theorem test_wf_missing_data_refused : hostDisciplined 0 [.pktstart 0x42#16 2#16, .pktdata 0x61#8] = false := by decide
theorem test_wf_interleaving_refused : hostDisciplined 0 [.pktstart 0x42#16 1#16, .crcinit, .pktdata 0x61#8] = false := by decide
theorem test_wf_catalog_doubled_refused :
    catalogCodesDistinct [⟨0x42#8, "A".toList, []⟩, ⟨0x42#8, "B".toList, []⟩] = false := by decide
/-- R99: 0x42 is Delete File. -/
theorem test_wf_catalog_revealed_refused :
    catalogHoldsRevealed [⟨0x42#8, "List Files".toList, []⟩, ⟨0xFE#8, "List Files".toList, []⟩,
      ⟨0x16#8, "Request File".toList, []⟩, ⟨0x01#8, "Unzip File".toList, []⟩] = false := by decide

/-! ## Decoding: words written out from R70, R71, R74 (R83 and 95_test_vectors.md 2.5) -/

theorem test_decode_nop : decode 0x0000000000#40 = .ok .nop := by decide
theorem test_decode_crcinit : decode 0x0100000000#40 = .ok .crcinit := by decide
theorem test_decode_crcbyte : decode 0x02000000FF#40 = .ok (.crcbyte 0xFF#8) := by decide
theorem test_decode_crcrd : decode 0x0300000000#40 = .ok .crcrd := by decide
theorem test_decode_hdrbld : decode 0x0400420006#40 = .ok (.hdrbld 0x0042#16 0x0006#16) := by decide
theorem test_decode_pktstart : decode 0x0500FE0003#40 = .ok (.pktstart 0x00FE#16 0x0003#16) := by decide
theorem test_decode_pktdata : decode 0x0600000061#40 = .ok (.pktdata 0x61#8) := by decide
theorem test_decode_reserved_z : decode 0x0000000001#40 = .error (.reservedBitSet 0#8) := by decide
theorem test_decode_reserved_b : decode 0x0600010061#40 = .error (.reservedBitSet 6#8) := by decide
theorem test_decode_undefined : decode 0xFFFFFFFFFF#40 = .error (.undefinedOpcode 0xFF#8) := by decide
theorem test_table_word : decodeTableWord 40 0x0400420006 = some (.hdrbld 0x0042#16 0x0006#16) := by decide
theorem test_table_word_refused : decodeTableWord 40 0x0200000100 = none := by decide

/-! ## The step -/

/-- A presented word runs as the first command after reset (S1's header). -/
theorem test_step_runs_presented_word :
    seen (step (State.reset.withFetchWord 40 0x0400420006)) =
      some (0xFFFF#16, 0#16, [], [⟨.ok, 0x2042C0000007#48⟩]) := by decide

/-- 2.5: an illegal word, inside a frame too. -/
theorem test_step_illegal_word :
    seen (step ((stateAt 0x38C6#16 3#16).withFetchWord 40 0x0600010061)) =
      some (0x38C6#16, 3#16, [], [⟨.illegalOp, 0#48⟩]) := by decide

theorem test_stops :
    step State.reset = .fault .awaitingCommand ∧ step (stateAt 0x38C6#16 3#16) = .fault .stuckInFrame := ⟨rfl, rfl⟩

/-! ## The commands (95_test_vectors.md 2.2 to 2.4) -/

theorem test_nop : seen (exec .nop (stateAt 0xFFC8#16 4#16)) = some (0xFFC8#16, 4#16, [], [⟨.ok, 0#48⟩]) := by decide

theorem test_crcinit : seen (exec .crcinit (stateAt 0x29B1#16 0#16)) = some (0xFFFF#16, 0#16, [], [⟨.ok, 0#48⟩]) := by decide
theorem test_crcinit_in_frame :
    seen (exec .crcinit (stateAt 0xFFC8#16 4#16)) = some (0xFFC8#16, 4#16, [], [⟨.protocolError, 0#48⟩]) := by decide

theorem test_crcbyte :
    seen (exec (.crcbyte 0x56#8) (stateAt 0x1234#16 0#16)) = some (0x3C40#16, 0#16, [], [⟨.ok, 0#48⟩]) := by decide
theorem test_crcbyte_in_frame :
    seen (exec (.crcbyte 0xAA#8) (stateAt 0xFFC8#16 4#16)) = some (0xFFC8#16, 4#16, [], [⟨.protocolError, 0#48⟩]) := by decide

theorem test_crcrd :
    seen (exec .crcrd (stateAt 0x29B1#16 0#16)) = some (0x29B1#16, 0#16, [], [⟨.ok, 0x0000000029B1#48⟩]) := by decide
theorem test_crcrd_in_frame :
    seen (exec .crcrd (stateAt 0xFFC8#16 4#16)) = some (0xFFC8#16, 4#16, [], [⟨.ok, 0x00000000FFC8#48⟩]) := by decide

theorem test_hdrbld_largest :
    seen (exec (.hdrbld 0xFF#16 0xFFFE#16) (stateAt 0xFFFF#16 0#16)) =
      some (0xFFFF#16, 0#16, [], [⟨.ok, 0x20FFC000FFFF#48⟩]) := by decide
theorem test_hdrbld_priority :
    seen (exec (.hdrbld 0x100#16 0xFFFF#16) (stateAt 0xFFFF#16 0#16)) =
      some (0xFFFF#16, 0#16, [], [⟨.invalidCode, 0#48⟩]) := by decide

theorem test_pktstart_empty :
    seen (exec (.pktstart 0x00#16 0#16) (stateAt 0xFFFF#16 0#16)) =
      some (0x989D#16, 0#16,
        [0x35#8, 0x2E#8, 0xF8#8, 0x53#8, 0x20#8, 0x00#8, 0xC0#8, 0x00#8, 0x00#8, 0x01#8, 0x98#8, 0x9D#8],
        [⟨.ok, 0#48⟩]) := by decide +kernel
theorem test_pktstart_old_crc_discarded :
    seen (exec (.pktstart 0xFE#16 3#16) (stateAt 0x1234#16 0#16)) =
      some (0x38C6#16, 3#16, [0x35#8, 0x2E#8, 0xF8#8, 0x53#8, 0x20#8, 0xFE#8, 0xC0#8, 0x00#8, 0x00#8, 0x04#8],
        [⟨.ok, 0#48⟩]) := by decide +kernel

theorem test_pktdata :
    seen (exec (.pktdata 0x00#8) (stateAt 0x38C6#16 3#16)) = some (0x715B#16, 2#16, [0x00#8], [⟨.ok, 0#48⟩]) := by decide
theorem test_pktdata_last :
    seen (exec (.pktdata 0x61#8) (stateAt 0x2597#16 1#16)) =
      some (0x9F40#16, 0#16, [0x61#8, 0x9F#8, 0x40#8], [⟨.ok, 0#48⟩]) := by decide

/-! ## The checksum (95_test_vectors.md 2.1, V3, V4) -/

/-- The ASCII bytes of "123456789". -/
def checkString : List Byte := [0x31#8, 0x32#8, 0x33#8, 0x34#8, 0x35#8, 0x36#8, 0x37#8, 0x38#8, 0x39#8]

theorem test_crc_bit :
    crcBit 0x8000#16 false = 0x1021#16 ∧ crcBit 0x8000#16 true = 0x0000#16 ∧ crcBit 0xFFFF#16 false = 0xEFDF#16 := by decide
theorem test_checksum_empty : checksum [] = 0xFFFF#16 := by decide +kernel
theorem test_checksum_check_string : checksum checkString = 0x29B1#16 := by decide +kernel
theorem test_checksum_first_bit : checksum [0x80#8] = 0x7078#16 := by decide +kernel
theorem test_checksum_can_be_zero : checksum [0xFF#8, 0xFF#8] = 0x0000#16 := by decide +kernel
/-- S1's packet: header and data. -/
theorem test_checksum_packet :
    checksum [0x20#8, 0x42#8, 0xC0#8, 0x00#8, 0x00#8, 0x07#8, 0x01#8, 0x00#8, 0x03#8, 0x61#8, 0x62#8, 0x63#8] = 0xC2FF#16 := by
  decide +kernel
/-- The values of other variants (V4), from the same parameterised model. -/
theorem test_other_variants :
    paramCrc ⟨0x1021#16, 0x0000#16, false, false, 0x0000#16⟩ checkString = 0x31C3#16 ∧
      paramCrc ⟨0x1021#16, 0xFFFF#16, false, false, 0xFFFF#16⟩ checkString = 0xD64E#16 ∧
      paramCrc ⟨0x1021#16, 0xFFFF#16, true, true, 0x0000#16⟩ checkString = 0x6F91#16 := by decide +kernel

/-! ## The host's side (S1 to S5, P6) -/

/-- A host for the tests; the open choices are this test's own. -/
def testHost : HostParams where
  catalog := [⟨0x42#8, "Delete File".toList, []⟩, ⟨0xFE#8, "List Files".toList, []⟩] ++
    [⟨0x16#8, "Request File".toList, []⟩, ⟨0x01#8, "Unzip File".toList, []⟩]
  parseInteger := fun t => (digitsValue 10 decDigit t).map Int.ofNat
  reportedError := fun _ _ _ => 0
  overlongError := fun _ _ => .lengthOverflow
  parseApidOther := fun _ => none
  malformedApid := fun _ => .unknownCommand
  renderHex := fun _ => []
  errorMessage := fun _ => []

def deleteFields : FieldValues :=
  [("Directory Flag".toList, "0x01".toList), ("File/Directory Name".toList, "abc".toList)]
def listFields : FieldValues := [("Directory Path".toList, "a".toList)]
def requestFields : FieldValues :=
  [("Transfer ID".toList, "5".toList), ("Transfer Flag".toList, "255".toList)] ++
  [("Chunk Index".toList, "2".toList), ("Number of Chunks to Transfer".toList, "99".toList)]

/-- Definitions by name alone. -/
def named (name : String) : CommandDefinition := ⟨0x42#8, name.toList, []⟩

theorem test_s1 : encodeDeleteFile testHost (named "Delete File") deleteFields = .ok [0x01#8, 0x00#8, 0x03#8, 0x61#8, 0x62#8, 0x63#8] := rfl
theorem test_s2 : encodeListFiles listFields = .ok [0x00#8, 0x01#8, 0x61#8] := rfl
theorem test_s3 :
    encodeRequestFile testHost (named "Request File") requestFields = .ok [0x00#8, 0x05#8, 0xFF#8, 0x00#8, 0x02#8, 0x00#8, 0x00#8] := rfl
theorem test_s4 : assemble testHost 0x99 [] = .error .unknownCommand := rfl
theorem test_s5 : encodeDeleteFile testHost (named "Delete File") [("Directory Flag".toList, "0x01".toList)] =
    .error (.missingField "File/Directory Name".toList) := rfl
/-- S2 carried through (1.4). -/
theorem test_s2_packet : assemble testHost 0xFE listFields =
    .ok ([0x35#8, 0x2E#8, 0xF8#8, 0x53#8, 0x20#8, 0xFE#8, 0xC0#8, 0x00#8, 0x00#8, 0x04#8] ++
      [0x00#8, 0x01#8, 0x61#8, 0x9F#8, 0x40#8]) := by decide +kernel
/-- R98: the format an `InvalidField` names, and R105: a response's status as a kind. -/
theorem test_invalid_field :
    encodeRequestFile testHost (named "Request File") (("Chunk Index".toList, "x".toList) :: requestFields) =
      .error (.invalidField "Chunk Index".toList (.integer 2)) := rfl
/-- R93: base 16, with or without the `0x` of the example, and nothing else (log entry 11). -/
theorem test_hex_flag :
    hexNumber "10".toList = some 16 ∧ hexNumber "0x01".toList = some 1 ∧ hexNumber "zz".toList = none ∧
      hexNumber "0x".toList = none ∧ hexNumber "".toList = none := by decide
theorem test_block_error :
    (responseReply testHost ⟨.protocolError, 0#48⟩).map (·.kind) = some .protocolError := by decide
theorem test_sentinel : encodeDefault = [0xDE#8, 0xAD#8, 0xBE#8, 0xEF#8] := by decide
theorem test_apid : parseApid testHost "0xFE".toList = some 0xFE := rfl
/-- UTF-8 of U+0041, U+00E9, U+20AC and U+10348, from the definition of UTF-8. -/
theorem test_utf8 : [0x41, 0xE9, 0x20AC, 0x10348].flatMap (fun n => utf8Char (Char.ofNat n)) =
    [0x41#8, 0xC3#8, 0xA9#8, 0xE2#8, 0x82#8, 0xAC#8, 0xF0#8, 0x90#8, 0x8D#8, 0x88#8] := by decide
/-- R81's example line with a comment, and the two macros of R82. -/
theorem test_asm_line : asmLine "HDRBLD 0x42, 6 ; word".toList = some [.hdrbld 0x42#16 6#16] := by decide
theorem test_asm_checksum : asmLine "CHECKSUM 0x31, 50".toList = some [.crcinit, .crcbyte 0x31#8, .crcbyte 0x32#8, .crcrd] := by
  decide
theorem test_asm_packet : asmLine "PACKET 0xFE; 0x00, 0x61".toList =
    some [.pktstart 0xFE#16 2#16, .pktdata 0x00#8, .pktdata 0x61#8] := by decide
theorem test_asm_refused : asmLine "CRCBYTE 256".toList = none := by decide

/-! ## Witnesses: concrete inputs that meet the hypotheses of each statement that has some -/

/-- A frame with three bytes owed: P3 after its first command. -/
def openState : State :=
  { stateAt 0x38C6#16 3#16 with
    txStream := [0x35#8, 0x2E#8, 0xF8#8, 0x53#8, 0x20#8, 0xFE#8, 0xC0#8, 0x00#8, 0x00#8, 0x04#8] }

/-- A closed state that is not the reset state. -/
def closedState : State := stateAt 0x1234#16 0#16

theorem witness_StepRunsTheDecodedCommand : decode 0x0400420006#40 = .ok (.hdrbld 0x42#16 6#16) := by decide
theorem witness_OnlyEncodingsDecode : decode 0x02000000FF#40 = .ok (.crcbyte 0xFF#8) := by decide

/-- The three ways to be illegal, and the last legal word of each kind. -/
theorem witness_IllegalOpIsDecidedFromTheWordAlone :
    6 < (0x0700000000#40).toNat / 2 ^ 32 ∧
    ((0x0100000001#40).toNat / 2 ^ 32 ∈ [0, 1, 3] ∧ (0x0100000001#40).toNat % 2 ^ 32 ≠ 0) ∧
    ((0x0600000100#40).toNat / 2 ^ 32 ∈ [2, 6] ∧ (0x0600000100#40).toNat % 2 ^ 32 / 2 ^ 8 ≠ 0) ∧
    ((0x06000000FF#40).toNat / 2 ^ 32 = 6 ∧ (0x06000000FF#40).toNat % 2 ^ 32 / 2 ^ 8 = 0) := by decide

/-- Both sides of the frame condition, at its boundary: 0, 1 and the largest count. -/
theorem witness_CrcinitSetsTheInitialValue : closedState.remaining = 0#16 ∧ openState.remaining ≠ 0#16 := by decide
theorem witness_CrcbyteFeedsOneByte : closedState.remaining = 0#16 ∧ (stateAt 0#16 1#16).remaining ≠ 0#16 := by decide
theorem witness_PktdataSendsOneByte :
    (stateAt 0x2597#16 1#16).remaining ≠ 0#16 ∧ (stateAt 0#16 0xFFFE#16).remaining ≠ 0#16 ∧ closedState.remaining = 0#16 := by
  decide

theorem witness_HdrbldBuildsTheHeader :
    (0xFF#16).toNat ≤ 255 ∧ (0xFFFE#16).toNat ≤ 65534 ∧ (0#16).toNat ≤ 65534 ∧ 255 < (0x100#16).toNat ∧
      255 < (0xFFFF#16).toNat ∧ (0x42#16).toNat ≤ 255 := by decide
theorem witness_PktstartOpensAFrame :
    closedState.remaining = 0#16 ∧ (0xFF#16).toNat ≤ 255 ∧ (0#16).toNat ≤ 65534 ∧ (0xFFFE#16).toNat ≤ 65534 := by decide
theorem witness_PktstartRefusesBeforeTheFirstByte :
    openState.remaining ≠ 0#16 ∧ closedState.remaining = 0#16 ∧ 255 < (0x100#16).toNat ∧ (0xFF#16).toNat ≤ 255 := by decide

theorem witness_RefusedCommandsHaveNoOtherEffect :
    seen (step (openState.withFetchWord 40 0x0100000000)) =
      some (0x38C6#16, 3#16, openState.txStream, [⟨.protocolError, 0#48⟩]) := by decide +kernel
theorem witness_RefusedCommandIsAsIfNeverIssued :
    exec .crcinit openState =
      .next { openState with rspStream := openState.rspStream ++ [⟨.protocolError, 0#48⟩],
                             rspQueue := openState.rspQueue ++ [⟨.protocolError, 0#48⟩] } := rfl
theorem witness_CommandsChangeOnlyTheirOwnState :
    (∃ code n, Instr.hdrbld 0x42#16 6#16 = .hdrbld code n) ∧ ∃ x, Instr.crcbyte 0x31#8 = .crcbyte x :=
  ⟨⟨_, _, rfl⟩, ⟨_, rfl⟩⟩

/-- A step that opens a frame, one that closes it with its last byte, one that closes it by reset. -/
theorem witness_FramesOpenAndCloseOnlyAsStated :
    (∃ t, step (closedState.withFetchWord 40 0x0500FE0003) = .next t ∧ closedState.remaining = 0#16 ∧ t.remaining ≠ 0#16) ∧
    (∃ t, step ((stateAt 0x2597#16 1#16).withFetchWord 40 0x0600000061) = .next t ∧ t.remaining = 0#16) ∧
    ∃ t, step { openState with pending := [.reset] } = .next t ∧ openState.remaining ≠ 0#16 ∧ t.remaining = 0#16 :=
  ⟨⟨_, rfl, by decide, by decide⟩, ⟨_, rfl, by decide⟩, ⟨_, rfl, by decide, by decide⟩⟩
theorem witness_OnlyPktdataOrResetMovesAnOpenFrame :
    openState.remaining ≠ 0#16 ∧ HostMove.takeTx ≠ .reset ∧ HostMove.command 0x0100000000#40 ≠ .reset ∧
      decode 0x0100000000#40 = .ok .crcinit := by decide

/-- Each branch of the shift register, and both ends of the range. -/
theorem witness_CrcBitIsTheShiftRegister :
    [0, 5, 12, 15].all (fun i => decide (i < 16)) = true ∧
      [0, 5, 12, 15].map (crcBit 0x8000#16 false).getLsbD = [true, true, true, false] := by decide
theorem witness_HeaderBytesAreAsListed :
    (0xFF#16).toNat ≤ 255 ∧ (0xFFFE#16).toNat ≤ 65534 ∧ (0#16).toNat ≤ 65534 := by decide
theorem witness_HeaderArithmeticNeverWraps :
    (0xFF#16).toNat ≤ 255 ∧ (0xFFFE#16).toNat ≤ 65534 ∧ ((0xFFFE#16).setWidth 17 + 1#17).msb = false ∧
      ((0xFFFF#16).setWidth 17 + 1#17).msb = true := by decide

/-- The shortest and the longest data field. -/
theorem witness_PacketsAreFramedAsMapped :
    (0xFF#16).toNat ≤ 255 ∧ ([] : List Byte).length ≤ 65534 ∧ (List.replicate 65534 0x00#8).length ≤ 65534 :=
  ⟨by decide, by decide, Nat.le_of_eq List.length_replicate⟩
theorem witness_FrameEmitsExactlyThePacket :
    closedState.remaining = 0#16 ∧ (0xFE#16).toNat ≤ 255 ∧ [0x61#8].length ≤ 65534 ∧
      [Instr.nop, .pktdata 0x61#8, .hdrbld 0x100#16 0#16].filter (fun i => !i.passive) = [0x61#8].map Instr.pktdata := by
  decide
theorem witness_CrcrdAfterAFrameReturnsItsChecksum :
    closedState.remaining = 0#16 ∧ (0xFF#16).toNat ≤ 255 ∧ [0x00#8, 0x61#8].length ≤ 65534 := by decide
theorem witness_StandAloneCommandsGiveTheSamePacket :
    closedState.remaining = 0#16 ∧ (0x77#16).toNat ≤ 255 ∧ encodeDefault.length ≤ 65534 := by decide
theorem witness_ChecksumMacroReturnsTheChecksum : closedState.remaining = 0#16 := by decide
theorem witness_PktstartForgetsTheOldAccumulator :
    closedState.remaining = 0#16 ∧ (0xFF#16).toNat ≤ 255 ∧ (0xFFFE#16).toNat ≤ 65534 := by decide
theorem witness_DisciplinedHostIsNeverRefused :
    hostDisciplined closedState.remaining.toNat
      [.pktstart 0xFE#16 1#16, .nop, .pktdata 0x61#8, .crcinit, .crcbyte 0x31#8, .crcrd] = true ∧
    hostDisciplined openState.remaining.toNat [.pktdata 0#8, .pktdata 1#8, .pktdata 0x61#8] = true := by decide

/-- The invariant of an open frame that owes its whole data field, and a step from it. -/
theorem witness_StepsKeepTheStreamInvariant :
    StreamInv { openState with pending := [.command 0x0600000000#40] } ∧
      ∃ t, step { openState with pending := [.command 0x0600000000#40] } = .next t :=
  ⟨⟨[], by simp, Or.inr ⟨by decide, 0xFE#8, 3#16, [], by decide, by decide, by decide, by decide +kernel⟩⟩, ⟨_, rfl⟩⟩
theorem witness_StepsKeepThePortsInOrder :
    PortsInv { State.reset with txStream := [0x61#8], txQueue := [0x61#8], pending := [.takeTx] } ∧
      ∃ t, step { State.reset with txStream := [0x61#8], txQueue := [0x61#8], pending := [.takeTx] } = .next t :=
  ⟨⟨⟨[], [], rfl, rfl⟩, ⟨[], [], rfl, rfl⟩⟩, ⟨_, rfl⟩⟩
theorem witness_StepsKeepRemainingBoundedAndErrorsEmpty :
    RemainingBounded (stateAt 0#16 0xFFFE#16) ∧ ResponsesInv (stateAt 0#16 0xFFFE#16) ∧
      ∃ t, step ((stateAt 0#16 0xFFFE#16).withFetchWord 40 0x0100000000) = .next t :=
  ⟨by unfold RemainingBounded; decide, fun r h => by simp [stateAt] at h, ⟨_, rfl⟩⟩

/-- One set of inputs for the three encoders; the flag at its largest, and an empty text. -/
def textFields : FieldValues :=
  [("Directory Flag".toList, "0xFF".toList), ("File/Directory Name".toList, "abc".toList)] ++
  [("Directory Path".toList, "abc".toList), ("ZipFile Name".toList, "abc".toList), ("Destination Directory Path".toList, [])]
theorem witness_TextFieldEncodersAreAsListed :
    [0xF#4, 0xF#4] ≠ [] ∧ 'z' ∈ "0xz".toList ∧ hexDigit 'z' = none ∧ 'z' ≠ 'x' ∧ 'z' ≠ 'X' ∧
    (named "Delete File").name = "Delete File".toList ∧ (named "List Files").name = "List Files".toList ∧
      (named "Unzip File").name = "Unzip File".toList ∧
      valueOf textFields "Directory Flag".toList = some "0xFF".toList ∧ hexNumber "0xFF".toList = some 255 ∧
      valueOf textFields "File/Directory Name".toList = some "abc".toList ∧ (utf8 "abc".toList).length < 65536 ∧
      valueOf textFields "Directory Path".toList = some "abc".toList ∧
      valueOf textFields "ZipFile Name".toList = some "abc".toList ∧
      valueOf textFields "Destination Directory Path".toList = some [] ∧ (utf8 []).length < 65536 :=
  ⟨by decide, by decide, rfl, by decide, by decide, rfl, rfl, rfl, rfl, rfl, rfl, by decide, rfl, rfl, rfl, by decide⟩

/-- S3's inputs (the flag is 255), and the same with the flag 254. -/
def otherFlagFields : FieldValues :=
  [("Transfer ID".toList, "65535".toList), ("Transfer Flag".toList, "254".toList)] ++
  [("Chunk Index".toList, "65535".toList), ("Number of Chunks to Transfer".toList, "65535".toList)]
theorem witness_RequestFileForcesTheChunkCount :
    (named "Request File").name = "Request File".toList ∧
    (valueOf requestFields "Transfer ID".toList = some "5".toList ∧ testHost.parseInteger "5".toList = some 5 ∧
      valueOf requestFields "Transfer Flag".toList = some "255".toList ∧ testHost.parseInteger "255".toList = some 255 ∧
      valueOf requestFields "Chunk Index".toList = some "2".toList ∧ testHost.parseInteger "2".toList = some 2) ∧
    (valueOf otherFlagFields "Transfer ID".toList = some "65535".toList ∧
      valueOf otherFlagFields "Transfer Flag".toList = some "254".toList ∧ testHost.parseInteger "254".toList = some 254 ∧
      valueOf otherFlagFields "Chunk Index".toList = some "65535".toList ∧
      valueOf otherFlagFields "Number of Chunks to Transfer".toList = some "65535".toList ∧
      testHost.parseInteger "65535".toList = some 65535) :=
  ⟨rfl, ⟨rfl, rfl, rfl, rfl, rfl, rfl⟩, ⟨rfl, rfl, rfl, rfl, rfl, rfl⟩⟩
theorem witness_UnknownCodesFailAndOtherNamesGetTheSentinel :
    (∀ d ∈ testHost.catalog, (d.code.toNat : Int) ≠ 0x99) ∧
      "Ping".toList ∉ ["Delete File".toList, "List Files".toList, "Unzip File".toList, "Request File".toList] := by decide
theorem witness_BlockSendsWhatAssembleReturns :
    (∃ bytes, assemble testHost 0xFE listFields = .ok bytes) ∧ closedState.remaining = 0#16 :=
  ⟨⟨_, test_s2_packet⟩, by decide⟩
theorem witness_RevealedCodesSelectTheirEncoders : catalogWellFormed testHost.catalog = true := by decide
theorem witness_FieldErrorsNameTheFieldAndFormat :
    valueOf listFields "Directory Flag".toList = none ∧
      valueOf [("Directory Flag".toList, "zz".toList)] "Directory Flag".toList = some "zz".toList ∧
      hexNumber "zz".toList = none ∧ testHost.parseInteger "zz".toList = none := ⟨rfl, rfl, rfl, rfl⟩
/-- Its second part: each of the four named commands fails on no inputs, and Request File on a chunk count alone. -/
theorem witness_FieldErrorsNameTheFieldAndFormat_encoders :
    (∃ e, encodeFields testHost (named "Delete File") [] = .error e) ∧
      (∃ e, encodeFields testHost (named "List Files") [] = .error e) ∧
      (∃ e, encodeFields testHost (named "Unzip File") [] = .error e) ∧
      (∃ e, encodeFields testHost (named "Request File") [] = .error e) ∧
      encodeFields testHost (named "Request File") (otherFlagFields.take 3) =
        .error (.missingField "Number of Chunks to Transfer".toList) :=
  ⟨⟨_, rfl⟩, ⟨_, rfl⟩, ⟨_, rfl⟩, ⟨_, rfl⟩, rfl⟩
theorem witness_BlockErrorsReachTheBoundaryAsTheirStatus :
    (⟨.ok, 0#48⟩ : Response).status = .ok ∧ (⟨.illegalOp, 0#48⟩ : Response).status ≠ .ok := by decide
theorem witness_HostResultIsAssemblesResult :
    closedState.remaining = 0#16 ∧ (∃ e, handedData testHost 0x99 [] = .error e) ∧
      ∃ data, handedData testHost 0xFE listFields = .ok data := ⟨by decide, ⟨_, rfl⟩, ⟨_, rfl⟩⟩

end Sys2Proof.Tests
end

section
/-! SUPPORT. The statements about the block's scope (spec/00_scope.md): what a step on an accepted word is, that it appends one
response and a few bytes whatever the word and the state, and that the checksum is the CRC of R8's parameter set. -/

namespace Sys2Proof.Machine

/-! ## A step on an accepted word -/

/-- A step on an accepted word runs that word on the state with the move consumed (R13, R41). -/
theorem step_command (s : State) (w : CommandWord) (rest : List HostMove) :
    step { s with pending := .command w :: rest } = acceptWord w { s with pending := rest } := rfl

/-- A word that decodes is executed (R73). -/
theorem acceptWord_of_decode_ok {w : CommandWord} {i : Instr} (h : decode w = .ok i) (s : State) :
    acceptWord w s = exec i s := by
  rw [acceptWord, h]

/-- A word that does not decode gets the error response `IllegalOp` (R173). -/
theorem acceptWord_of_decode_error {w : CommandWord} {e : DecodeError} (h : decode w = .error e) (s : State) :
    acceptWord w s = .next (respond .illegalOp 0#48 s) := by
  rw [acceptWord, h]
  rfl

/-- Settles O5: the step accepts the word, and a word that decodes is executed. -/
theorem stepRunsTheDecodedCommand : Obligations.StepRunsTheDecodedCommand := by
  unfold Obligations.StepRunsTheDecodedCommand
  intro s w rest i h
  rw [step_command, acceptWord_of_decode_ok h]

/-! ## What every accepted word appends -/

/-- `t` continues the output of `s` by the one response `r` and the bytes `bytes`, on the streams and on what waits at the ports
alike; nothing crosses a port and no move of the host is made (R23, R24, R31). The registers are left open. -/
structure Answers (r : Response) (bytes : List Byte) (s t : State) : Prop where
  rspStream : t.rspStream = s.rspStream ++ [r]
  rspQueue : t.rspQueue = s.rspQueue ++ [r]
  txStream : t.txStream = s.txStream ++ bytes
  txQueue : t.txQueue = s.txQueue ++ bytes
  txSent : t.txSent = s.txSent
  rspTaken : t.rspTaken = s.rspTaken
  pending : t.pending = s.pending

theorem answers_respond (st : Status) (d : Data48) (s : State) : Answers ⟨st, d⟩ [] s (respond st d s) := by
  constructor <;> simp

theorem answers_respond_setCrc (st : Status) (d : Data48) (k : Word) (s : State) :
    Answers ⟨st, d⟩ [] s (respond st d (setCrc k s)) := by
  constructor <;> simp

/-- The shape of the two packet commands: emit, write both registers, respond (R140, R141). -/
theorem answers_respond_emit (st : Status) (d : Data48) (n k : Word) (bytes : List Byte) (s : State) :
    Answers ⟨st, d⟩ bytes s (respond st d (setRemaining n (setCrc k (emit bytes s)))) := by
  constructor <;> simp

theorem trailerIf_length_le (last : Bool) (k : Word) : (trailerIf last k).length ≤ 2 := by
  cases last <;> simp

/-- The longest output is that of `PKTSTART` with `data_len` 0: sync marker, header and trailer, 4 + 6 + 2 bytes (R140). -/
theorem commandEffect_answers (i : Instr) (s : State) :
    ∃ r bytes, bytes.length ≤ 12 ∧ Answers r bytes s (commandEffect i s) := by
  cases i with
  | nop => exact ⟨_, [], by simp, answers_respond _ _ s⟩
  | crcinit => exact ⟨_, [], by simp, answers_respond_setCrc _ _ _ s⟩
  | crcbyte x => exact ⟨_, [], by simp, answers_respond_setCrc _ _ _ s⟩
  | crcrd => exact ⟨_, [], by simp, answers_respond _ _ s⟩
  | hdrbld code dataLen => exact ⟨_, [], by simp, answers_respond _ _ s⟩
  | pktstart code dataLen =>
    refine ⟨_, _, ?_, answers_respond_emit _ _ _ _ _ s⟩
    simp only [List.length_append, syncBytes_length, headerBytes_length]
    exact Nat.add_le_add_left (trailerIf_length_le _ _) 10
  | pktdata x =>
    refine ⟨_, _, ?_, answers_respond_emit _ _ _ _ _ s⟩
    rw [List.length_append, List.length_singleton]
    exact (Nat.add_le_add_left (trailerIf_length_le _ _) 1).trans (by decide)

/-- Executed or refused, a command answers once (R46, R176). -/
theorem afterCommand_answers (i : Instr) (s : State) :
    ∃ r bytes, bytes.length ≤ 12 ∧ Answers r bytes s (afterCommand i s) := by
  unfold afterCommand
  split
  · exact ⟨_, [], by simp, answers_respond _ _ s⟩
  · exact commandEffect_answers i s

/-- Every word, legal or not, is answered once and leaves a next state (R13). -/
theorem acceptWord_answers (w : CommandWord) (s : State) :
    ∃ t r bytes, acceptWord w s = .next t ∧ bytes.length ≤ 12 ∧ Answers r bytes s t := by
  cases h : decode w with
  | ok i =>
    obtain ⟨r, bytes, hlen, hans⟩ := afterCommand_answers i s
    exact ⟨_, r, bytes, by rw [acceptWord_of_decode_ok h, exec_eq_next], hlen, hans⟩
  | error e => exact ⟨_, _, [], acceptWord_of_decode_error h s, by simp, answers_respond _ _ s⟩

/-- Settles O7: the step is the accepted word's, and every accepted word answers once on the state with the move consumed. -/
theorem everyWordYieldsOneResponse : Obligations.EveryWordYieldsOneResponse := by
  unfold Obligations.EveryWordYieldsOneResponse
  intro s w rest
  obtain ⟨t, r, bytes, hnext, hlen, hans⟩ := acceptWord_answers w { s with pending := rest }
  exact ⟨t, r, bytes, (step_command s w rest).trans hnext, hans.rspStream, hans.rspQueue, hans.txStream, hans.txQueue, hlen,
    hans.txSent, hans.rspTaken, hans.pending⟩

/-! ## The checksum as a parameterised CRC -/

/-- A byte enters the register bit by bit, bit 7 first (R121, G8). -/
theorem crcByte_eq_foldl_paramBit (r : Word) (x : Byte) :
    crcByte r x = (messageBits false x).foldl (paramBit Config.crcPoly) r := rfl

/-- A byte string enters the register as the string of its bits (R122). -/
theorem crcBytes_eq_foldl_paramBit (r : Word) (bytes : List Byte) :
    crcBytes r bytes = (bytes.flatMap (messageBits false)).foldl (paramBit Config.crcPoly) r := by
  induction bytes generalizing r with
  | nil => rfl
  | cons x bytes ih => rw [crcBytes_cons, ih, crcByte_eq_foldl_paramBit, List.flatMap_cons, List.foldl_append]

/-- Without reflection of the result and with final XOR 0, the parameterised CRC is what is left in the register (R124, G1). -/
theorem paramCrc_plain (poly init : Word) (bytes : List Byte) :
    paramCrc ⟨poly, init, false, false, 0#16⟩ bytes = (bytes.flatMap (messageBits false)).foldl (paramBit poly) init := by
  simp [paramCrc]

/-- Settles O38: both sides shift the same bits into the same initial value. -/
theorem checksumIsTheParameterisedCrc : Obligations.ChecksumIsTheParameterisedCrc := by
  unfold Obligations.ChecksumIsTheParameterisedCrc
  intro bytes
  rw [paramCrc_plain, checksum, crcBytes_eq_foldl_paramBit]
  rfl

end Sys2Proof.Machine
end

section
/-! SUPPORT. The statements about the block's state (spec/10_state.md): the reset values, the frame of every command, and the
invariants on `remaining`, the responses and the TX stream, which every step keeps. -/

namespace Sys2Proof.Machine

/-! ## What a step can do -/

/-- A step makes the host's next move on the state with that move consumed (R13, R212). -/
theorem exists_makeMove_of_step {s t : State} (h : step s = .next t) :
    ∃ m rest, s.pending = m :: rest ∧ makeMove m { s with pending := rest } = .next t := by
  unfold step nextMove at h
  split at h
  next =>
    unfold noMove at h
    split at h <;> cases h
  next m rest hp => exact ⟨m, rest, hp, h⟩

/-- An accepted word is answered `IllegalOp`, or executed as the command it decodes to (R73, R173). -/
theorem acceptWord_cases {w : CommandWord} {s t : State} (h : acceptWord w s = .next t) :
    (∃ e, decode w = .error e ∧ t = respond .illegalOp 0#48 s) ∨ ∃ i, decode w = .ok i ∧ t = afterCommand i s := by
  cases hw : decode w with
  | error e =>
    rw [acceptWord_of_decode_error hw] at h
    exact .inl ⟨e, rfl, (Host.Outcome.next.inj h).symm⟩
  | ok i =>
    rw [acceptWord_of_decode_ok hw, exec_eq_next] at h
    exact .inr ⟨i, rfl, (Host.Outcome.next.inj h).symm⟩

/-- A command is refused with its first error, or has its effect (R175, R176). -/
theorem afterCommand_cases (i : Instr) (s : State) :
    (∃ e, e ≠ .ok ∧ commandError i s = some e ∧ afterCommand i s = respond e 0#48 s) ∨
      (commandError i s = none ∧ afterCommand i s = commandEffect i s) := by
  unfold afterCommand
  cases he : commandError i s with
  | some e => exact .inl ⟨e, fun h => commandError_ne_ok i s (h ▸ he), rfl, rfl⟩
  | none => exact .inr ⟨rfl, rfl⟩

/-- A transfer at the TX port touches what waits and what crossed, nothing else (R42). -/
theorem takeTx_eq_update (s : State) : ∃ waiting sent, takeTx s = { s with txQueue := waiting, txSent := sent } := by
  unfold takeTx
  split
  · exact ⟨s.txQueue, s.txSent, rfl⟩
  · exact ⟨_, _, rfl⟩

/-- A transfer at the response port touches what waits and what crossed, nothing else (R43). -/
theorem takeResponse_eq_update (s : State) :
    ∃ waiting taken, takeResponse s = { s with rspQueue := waiting, rspTaken := taken } := by
  unfold takeResponse
  split
  · exact ⟨s.rspQueue, s.rspTaken, rfl⟩
  · exact ⟨_, _, rfl⟩

/-- `P` looks at the registers and the two streams only, not at the ports or the host's moves. -/
def IgnoresPorts (P : State → Prop) : Prop :=
  ∀ s txQueue txSent rspQueue rspTaken pending, P s →
    P { s with txQueue := txQueue, txSent := txSent, rspQueue := rspQueue, rspTaken := rspTaken, pending := pending }

/-- The step rule for such properties: a step resets the block, makes an error response, or executes a command that meets no
error; the rest of what it does is at the ports. -/
theorem step_keeps {P : State → Prop} (hports : IgnoresPorts P) (hreset : P State.reset)
    (herror : ∀ e s, e ≠ .ok → P s → P (respond e 0#48 s))
    (heffect : ∀ i s, commandError i s = none → P s → P (commandEffect i s))
    {s t : State} (hs : P s) (h : step s = .next t) : P t := by
  obtain ⟨m, rest, -, hm⟩ := exists_makeMove_of_step h
  have hs' : P { s with pending := rest } := hports s _ _ _ _ rest hs
  cases m with
  | command w =>
    obtain ⟨-, -, rfl⟩ | ⟨i, -, rfl⟩ := acceptWord_cases hm
    · exact herror .illegalOp _ (by decide) hs'
    · obtain ⟨e, hne, -, heq⟩ | ⟨hnone, heq⟩ := afterCommand_cases i { s with pending := rest } <;> rw [heq]
      · exact herror e _ hne hs'
      · exact heffect i _ hnone hs'
  | takeTx =>
    obtain ⟨waiting, sent, heq⟩ := takeTx_eq_update { s with pending := rest }
    rw [← Host.Outcome.next.inj hm, heq]
    exact hports _ _ _ _ _ _ hs'
  | takeResponse =>
    obtain ⟨waiting, taken, heq⟩ := takeResponse_eq_update { s with pending := rest }
    rw [← Host.Outcome.next.inj hm, heq]
    exact hports _ _ _ _ _ _ hs'
  | reset =>
    rw [← Host.Outcome.next.inj hm]
    exact hports State.reset _ _ _ _ _ hreset

/-! ## When a command meets no error -/

theorem codeTooBig_eq_false (code : Word) : codeTooBig code = false ↔ code.toNat ≤ 255 := by
  rw [codeTooBig, decide_eq_false_iff_not]
  exact Nat.not_lt

theorem lengthTooBig_eq_false (n : Word) : lengthTooBig n = false ↔ n ≠ 0xFFFF#16 := by
  have hmax : Config.maxDataLen = 65534 := rfl
  simp only [lengthTooBig, hmax, decide_eq_false_iff_not]
  bv_omega

/-- Outside a frame `CRCINIT` meets no error (R125). -/
theorem commandError_crcinit_eq_none (s : State) : commandError .crcinit s = none ↔ s.remaining = 0#16 := by
  simp [commandError, allowedIn, inFrame_eq_false]

/-- Outside a frame `CRCBYTE` meets no error (R126). -/
theorem commandError_crcbyte_eq_none (x : Byte) (s : State) :
    commandError (.crcbyte x) s = none ↔ s.remaining = 0#16 := by
  simp [commandError, allowedIn, inFrame_eq_false]

/-- Inside a frame `PKTDATA` meets no error (R141). -/
theorem commandError_pktdata_eq_none (x : Byte) (s : State) :
    commandError (.pktdata x) s = none ↔ s.remaining ≠ 0#16 := by
  simp [commandError, allowedIn, inFrame_eq_true]

/-- Outside a frame `PKTSTART` meets no error on operands in range (R140). -/
theorem commandError_pktstart_eq_none (code n : Word) (s : State) :
    commandError (.pktstart code n) s = none ↔ s.remaining = 0#16 ∧ code.toNat ≤ 255 ∧ n ≠ 0xFFFF#16 := by
  rw [← inFrame_eq_false, ← codeTooBig_eq_false, ← lengthTooBig_eq_false]
  simp [commandError, allowedIn, ite_eq_iff]

/-! ## The TX stream -/

/-- The byte string is whole packets, one after another (R147). -/
def WholeStream (bytes : List Byte) : Prop :=
  ∃ ps : List (Byte × List Byte), (∀ p ∈ ps, p.2.length ≤ 65534) ∧ bytes = wholePackets ps

/-- One more packet after whole packets. -/
theorem WholeStream.append_packet {bytes : List Byte} (h : WholeStream bytes) (code : Byte) {data : List Byte}
    (hdata : data.length ≤ 65534) : WholeStream (bytes ++ packetBytes (code.setWidth 16) data) := by
  obtain ⟨ps, hps, rfl⟩ := h
  refine ⟨ps ++ [(code, data)], ?_, by simp [wholePackets]⟩
  intro p hp
  obtain hp | hp := List.mem_append.mp hp
  · exact hps p hp
  · rw [List.mem_singleton.mp hp]
    exact hdata

/-- What an open frame has emitted: the sync marker, the header of `code` and `n`, the data bytes accepted so far (R140, R141). -/
def framePrefix (code : Byte) (n : Word) (d : List Byte) : List Byte :=
  syncBytes ++ (headerBytes (code.setWidth 16) n ++ d)

/-- The checksum so far of that frame (R144). -/
def frameChecksum (code : Byte) (n : Word) (d : List Byte) : Word := checksum (headerBytes (code.setWidth 16) n ++ d)

theorem framePrefix_snoc (code : Byte) (n : Word) (d : List Byte) (x : Byte) :
    framePrefix code n (d ++ [x]) = framePrefix code n d ++ [x] := by
  simp [framePrefix]

theorem frameChecksum_snoc (code : Byte) (n : Word) (d : List Byte) (x : Byte) :
    frameChecksum code n (d ++ [x]) = crcByte (frameChecksum code n d) x := by
  simp [frameChecksum, checksum, crcBytes]

/-- A frame with all its data and the trailer is the packet (R60, R144). -/
theorem framePrefix_append_trailer (code : Byte) {n : Word} {d : List Byte} (h : d.length = n.toNat) :
    framePrefix code n d ++ trailerBytes (frameChecksum code n d) = packetBytes (code.setWidth 16) d := by
  simp [framePrefix, frameChecksum, packetBytes, h]

/-- Outside a frame the invariant says that the TX stream is whole packets, whatever `crc` holds. -/
theorem streamInv_iff_of_closed {s : State} (h : s.remaining = 0#16) : StreamInv s ↔ WholeStream s.txStream := by
  simp [StreamInv, WholeStream, h]

/-- Inside a frame the invariant says what the frame has emitted and that `crc` is its checksum so far. -/
theorem streamInv_iff_of_open {s : State} (h : s.remaining ≠ 0#16) :
    StreamInv s ↔ ∃ sent, WholeStream sent ∧ ∃ (code : Byte) (n : Word) (d : List Byte), n ≠ 0xFFFF#16 ∧
      d.length + s.remaining.toNat = n.toNat ∧ s.txStream = sent ++ framePrefix code n d ∧
      s.crc = frameChecksum code n d := by
  constructor
  · rintro ⟨ps, hps, ⟨h0, -⟩ | ⟨-, hframe⟩⟩
    · exact absurd h0 h
    · exact ⟨_, ⟨ps, hps, rfl⟩, hframe⟩
  · rintro ⟨_, ⟨ps, hps, rfl⟩, hframe⟩
    exact ⟨ps, hps, .inr ⟨h, hframe⟩⟩

/-- The two packet commands leave this: a frame's bytes after whole packets, its checksum in `crc`, the bytes it still owes in
`remaining`, and its trailer if it owes none. Then the frame is open, or it is one more whole packet (R140, R141). -/
theorem streamInv_of_frame {s : State} {sent : List Byte} (hsent : WholeStream sent) {code : Byte} {n : Word}
    {d : List Byte} (hn : n ≠ 0xFFFF#16) (hlen : d.length + s.remaining.toNat = n.toNat)
    (htx : s.txStream = sent ++ framePrefix code n d ++ trailerIf (s.remaining == 0#16) s.crc)
    (hcrc : s.crc = frameChecksum code n d) : StreamInv s := by
  by_cases hr : s.remaining = 0#16
  · have hd : d.length = n.toNat := by simpa [hr] using hlen
    have hmax : d.length ≤ 65534 := by bv_omega
    rw [streamInv_iff_of_closed hr, htx, hr, BEq.rfl, trailerIf_true, hcrc, List.append_assoc,
      framePrefix_append_trailer code hd]
    exact hsent.append_packet code hmax
  · rw [beq_false_of_ne hr, trailerIf_false, List.append_nil] at htx
    exact (streamInv_iff_of_open hr).mpr ⟨sent, hsent, code, n, d, hn, hlen, htx, hcrc⟩

theorem streamInv_ignoresPorts : IgnoresPorts StreamInv := fun _ _ _ _ _ _ h => h

theorem streamInv_respond {st : Status} {d : Data48} {s : State} : StreamInv (respond st d s) ↔ StreamInv s := Iff.rfl

/-- After reset the TX stream is no packet at all (R32). -/
theorem streamInv_reset : StreamInv State.reset :=
  (streamInv_iff_of_closed reset_remaining).mpr ⟨[], by simp, rfl⟩

/-- Outside a frame `crc` is free (R125, R126). -/
theorem streamInv_setCrc_of_closed {s : State} (hr : s.remaining = 0#16) (k : Word) (h : StreamInv s) :
    StreamInv (setCrc k s) :=
  (streamInv_iff_of_closed (s := setCrc k s) hr).mpr ((streamInv_iff_of_closed hr).mp h)

/-- An executed `PKTSTART` begins a frame with no data yet (R140). -/
theorem streamInv_pktstart {code n : Word} {s : State} (hnone : commandError (.pktstart code n) s = none)
    (h : StreamInv s) : StreamInv (commandEffect (.pktstart code n) s) := by
  obtain ⟨hr, hcode, hn⟩ := (commandError_pktstart_eq_none code n s).mp hnone
  have hbyte : (code.setWidth 8).setWidth 16 = code := by bv_omega
  refine streamInv_of_frame ((streamInv_iff_of_closed hr).mp h) (code := code.setWidth 8) (d := []) hn ?_ ?_ ?_
  · simp [commandEffect]
  · simp [commandEffect, framePrefix, hbyte]
  · simp [commandEffect, frameChecksum, checksum, hbyte]

/-- An executed `PKTDATA` adds one byte to the frame (R141). -/
theorem streamInv_pktdata {x : Byte} {s : State} (hnone : commandError (.pktdata x) s = none) (h : StreamInv s) :
    StreamInv (commandEffect (.pktdata x) s) := by
  have hr := (commandError_pktdata_eq_none x s).mp hnone
  obtain ⟨sent, hsent, code, n, d, hn, hlen, htx, hcrc⟩ := (streamInv_iff_of_open hr).mp h
  have hlast : (s.remaining == 1#16) = (s.remaining - 1#16 == 0#16) := by
    rw [Bool.eq_iff_iff, beq_iff_eq, beq_iff_eq]
    bv_omega
  refine streamInv_of_frame hsent (code := code) (d := d ++ [x]) hn ?_ ?_ ?_
  · simp only [commandEffect, respond_remaining, setRemaining_remaining, List.length_append, List.length_singleton]
    bv_omega
  · simp [commandEffect, framePrefix_snoc, htx, hlast]
  · simp [commandEffect, frameChecksum_snoc, hcrc]

/-- Only the two packet commands touch an open frame; the CRC commands are executed outside one (R142). -/
theorem streamInv_commandEffect {i : Instr} {s : State} (hnone : commandError i s = none) (h : StreamInv s) :
    StreamInv (commandEffect i s) := by
  cases i with
  | nop => exact streamInv_respond.mpr h
  | crcinit => exact streamInv_respond.mpr (streamInv_setCrc_of_closed ((commandError_crcinit_eq_none s).mp hnone) _ h)
  | crcbyte x =>
    exact streamInv_respond.mpr (streamInv_setCrc_of_closed ((commandError_crcbyte_eq_none x s).mp hnone) _ h)
  | crcrd => exact streamInv_respond.mpr h
  | hdrbld code n => exact streamInv_respond.mpr h
  | pktstart code n => exact streamInv_pktstart hnone h
  | pktdata x => exact streamInv_pktdata hnone h

/-- Settles O49: reset empties the stream, an error response leaves it, an executed command continues it packet by packet. -/
theorem stepsKeepTheStreamInvariant : Obligations.StepsKeepTheStreamInvariant := by
  unfold Obligations.StepsKeepTheStreamInvariant
  intro s t hs h
  exact step_keeps streamInv_ignoresPorts streamInv_reset (fun _ _ _ => streamInv_respond.mpr)
    (fun _ _ => streamInv_commandEffect) hs h

/-! ## `remaining` and the responses -/

theorem remainingBounded_ignoresPorts : IgnoresPorts RemainingBounded := fun _ _ _ _ _ _ h => h

theorem remainingBounded_respond {st : Status} {d : Data48} {s : State} :
    RemainingBounded (respond st d s) ↔ RemainingBounded s := Iff.rfl

theorem remainingBounded_reset : RemainingBounded State.reset := by
  unfold RemainingBounded
  decide

/-- `PKTSTART` takes no length of 0xFFFF, and `PKTDATA` counts down from a number above 0 (R140, R141). -/
theorem remainingBounded_commandEffect {i : Instr} {s : State} (hnone : commandError i s = none)
    (h : RemainingBounded s) : RemainingBounded (commandEffect i s) := by
  cases i with
  | nop => exact h
  | crcinit => exact h
  | crcbyte x => exact h
  | crcrd => exact h
  | hdrbld code n => exact h
  | pktstart code n =>
    obtain ⟨-, -, hn⟩ := (commandError_pktstart_eq_none code n s).mp hnone
    exact hn
  | pktdata x =>
    have hr := (commandError_pktdata_eq_none x s).mp hnone
    change s.remaining - 1#16 ≠ 0xFFFF#16
    bv_omega

theorem responsesInv_ignoresPorts : IgnoresPorts ResponsesInv := fun _ _ _ _ _ _ h => h

theorem responsesInv_reset : ResponsesInv State.reset := by
  intro r hr
  simp at hr

/-- One more response keeps the rule if it keeps it itself. -/
theorem responsesInv_of_append {s t : State} {r : Response} (ht : t.rspStream = s.rspStream ++ [r])
    (hr : r.status ≠ .ok → r.data = 0#48) (h : ResponsesInv s) : ResponsesInv t := by
  intro q hq
  rw [ht] at hq
  obtain hq | hq := List.mem_append.mp hq
  · exact h q hq
  · rw [List.mem_singleton.mp hq]
    exact hr

/-- An executed command answers OK (R79). -/
theorem commandEffect_rspStream (i : Instr) (s : State) :
    ∃ d, (commandEffect i s).rspStream = s.rspStream ++ [⟨.ok, d⟩] := by
  cases i <;> exact ⟨_, rfl⟩

theorem responsesInv_commandEffect (i : Instr) {s : State} (h : ResponsesInv s) : ResponsesInv (commandEffect i s) := by
  obtain ⟨d, hd⟩ := commandEffect_rspStream i s
  exact responsesInv_of_append hd (fun hne => absurd rfl hne) h

/-- Settles O51: both by the step rule. -/
theorem stepsKeepRemainingBoundedAndErrorsEmpty : Obligations.StepsKeepRemainingBoundedAndErrorsEmpty := by
  unfold Obligations.StepsKeepRemainingBoundedAndErrorsEmpty
  intro s t h
  constructor
  · intro hs
    exact step_keeps remainingBounded_ignoresPorts remainingBounded_reset (fun _ _ _ => remainingBounded_respond.mpr)
      (fun _ _ => remainingBounded_commandEffect) hs h
  · intro hs
    exact step_keeps responsesInv_ignoresPorts responsesInv_reset
      (fun e s _ => responsesInv_of_append (respond_rspStream e 0#48 s) fun _ => rfl)
      (fun i _ _ => responsesInv_commandEffect i) hs h

/-! ## The frame of every command -/

/-- A state that continues another's output differs from it in the output and the registers alone. -/
theorem Answers.eq_update {r : Response} {bytes : List Byte} {s t : State} (h : Answers r bytes s t) :
    t = { s with crc := t.crc, remaining := t.remaining, txStream := s.txStream ++ bytes, txQueue := s.txQueue ++ bytes,
                 rspStream := s.rspStream ++ [r], rspQueue := s.rspQueue ++ [r] } := by
  rw [← h.txStream, ← h.txQueue, ← h.rspStream, ← h.rspQueue, ← h.txSent, ← h.rspTaken, ← h.pending]

/-- A command that leaves the TX stream alone has emitted nothing. -/
theorem Answers.bytes_eq_nil {r : Response} {bytes : List Byte} {s t : State} (h : Answers r bytes s t)
    (htx : t.txStream = s.txStream) : bytes = [] :=
  List.append_right_eq_self.mp (h.txStream.symm.trans htx)

/-- `NOP`, `CRCRD` and `HDRBLD` only respond (R160, R127, R110). -/
theorem afterCommand_registers_of_reading {i : Instr} (hi : i = .nop ∨ i = .crcrd ∨ ∃ c n, i = .hdrbld c n) (s : State) :
    (afterCommand i s).crc = s.crc ∧ (afterCommand i s).remaining = s.remaining ∧
      (afterCommand i s).txStream = s.txStream := by
  obtain ⟨e, -, -, heq⟩ | ⟨-, heq⟩ := afterCommand_cases i s <;> rw [heq]
  · simp
  · obtain rfl | rfl | ⟨c, n, rfl⟩ := hi <;> simp [commandEffect]

/-- `CRCINIT` and `CRCBYTE` leave the frame and the TX stream alone (R125, R126). -/
theorem afterCommand_remaining_of_crcWriting {i : Instr} (hi : i = .crcinit ∨ ∃ x, i = .crcbyte x) (s : State) :
    (afterCommand i s).remaining = s.remaining ∧ (afterCommand i s).txStream = s.txStream := by
  obtain ⟨e, -, -, heq⟩ | ⟨-, heq⟩ := afterCommand_cases i s <;> rw [heq]
  · simp
  · obtain rfl | ⟨x, rfl⟩ := hi <;> simp [commandEffect]

/-- Settles O27: the registers are those of the state after the command, the rest is that it answers once. -/
theorem commandsChangeOnlyTheirOwnState : Obligations.CommandsChangeOnlyTheirOwnState := by
  unfold Obligations.CommandsChangeOnlyTheirOwnState
  intro s i
  obtain ⟨r, bytes, -, hans⟩ := afterCommand_answers i s
  refine ⟨r, (afterCommand i s).crc, (afterCommand i s).remaining, bytes, ?_, ?_, ?_⟩
  · rw [exec_eq_next, ← hans.eq_update]
  · intro hi
    obtain ⟨hcrc, hrem, htx⟩ := afterCommand_registers_of_reading hi s
    exact ⟨hcrc, hrem, hans.bytes_eq_nil htx⟩
  · intro hi
    obtain ⟨hrem, htx⟩ := afterCommand_remaining_of_crcWriting hi s
    exact ⟨hrem, hans.bytes_eq_nil htx⟩

/-! ## The reset state -/

/-- Settles O1, by the reset state's own field lemmas (R32). -/
theorem resetStateHoldsTheSpecValues : Obligations.ResetStateHoldsTheSpecValues := by
  unfold Obligations.ResetStateHoldsTheSpecValues
  exact ⟨reset_crc, reset_remaining, (inFrame_eq_false _).mpr reset_remaining, reset_txStream, reset_rspStream⟩

/-- After reset nothing crossed a port and nothing waits there. -/
theorem portsInv_reset : PortsInv State.reset := ⟨⟨[], [], rfl, rfl⟩, ⟨[], [], rfl, rfl⟩⟩

/-- Settles O48: each invariant after reset. -/
theorem resetStateMeetsTheInvariants : Obligations.ResetStateMeetsTheInvariants := by
  unfold Obligations.ResetStateMeetsTheInvariants
  exact ⟨streamInv_reset, portsInv_reset, responsesInv_reset, remainingBounded_reset⟩

end Sys2Proof.Machine
end

section
/-! SUPPORT. The statements about the block's ports and its packet layout (spec/20_memory.md): accepted words take effect one after
another, a transfer takes the oldest first, what crossed a port and what waits there is what was produced, and a packet's parts lie
at R49's offsets. -/

namespace Sys2Proof.Machine

/-! ## Words in order -/

/-- The decoder gives back the command that was encoded (R70 to R74). -/
theorem decode_encode (i : Instr) : decode (encode i) = .ok i := by
  cases i with
  | nop => decide
  | crcinit => decide
  | crcbyte x => simp [encode, opcodeOf, decode_packWord, byteOperand_high, byteOperand_low]
  | crcrd => decide
  | hdrbld code n => simp [encode, opcodeOf, decode_packWord]
  | pktstart code n => simp [encode, opcodeOf, decode_packWord]
  | pktdata x => simp [encode, opcodeOf, decode_packWord, byteOperand_high, byteOperand_low]

/-- A step on the word of a command leaves the state after that command (R13, R46). -/
theorem step_encode (i : Instr) (s : State) (rest : List HostMove) :
    step { s with pending := .command (encode i) :: rest } = .next (afterCommand i { s with pending := rest }) := by
  rw [step_command, acceptWord_of_decode_ok (decode_encode i), exec_eq_next]

/-- The moves of the host that wait behind a command have no part in what it does. -/
theorem afterCommand_withPending (i : Instr) (s : State) (moves : List HostMove) :
    afterCommand i { s with pending := moves } = { afterCommand i s with pending := moves } := by
  have herror : commandError i { s with pending := moves } = commandError i s := rfl
  unfold afterCommand
  rw [herror]
  cases commandError i s with
  | some e => rfl
  | none => cases i <;> rfl

/-- Settles O8, by induction on the commands: the first word's step leaves the state after the first command, on which the others
run with the words still pending. -/
theorem acceptedWordsTakeEffectInOrder : Obligations.AcceptedWordsTakeEffectInOrder := by
  unfold Obligations.AcceptedWordsTakeEffectInOrder
  intro is s rest
  induction is generalizing s with
  | nil => rfl
  | cons i is ih =>
    rw [execAll_cons, List.length_cons, List.map_cons, List.cons_append, run_core_succ _ _ _ (step_encode i s _),
      afterCommand_withPending, ih, ← afterCommand_withPending]

/-! ## Transfers -/

/-- A step with a TX transfer pending first makes it (R42, R214). -/
theorem step_takeTx {s : State} {rest : List HostMove} (h : s.pending = .takeTx :: rest) :
    step s = .next (takeTx { s with pending := rest }) := by
  rw [step, nextMove, h]
  rfl

/-- A step with a response transfer pending first makes it (R43, R214). -/
theorem step_takeResponse {s : State} {rest : List HostMove} (h : s.pending = .takeResponse :: rest) :
    step s = .next (takeResponse { s with pending := rest }) := by
  rw [step, nextMove, h]
  rfl

theorem takeTx_of_txQueue_cons {s : State} {x : Byte} {q : List Byte} (h : s.txQueue = x :: q) :
    takeTx s = { s with txQueue := q, txSent := s.txSent ++ [x] } := by
  rw [takeTx, h]

theorem takeTx_of_txQueue_nil {s : State} (h : s.txQueue = []) : takeTx s = s := by
  rw [takeTx, h]

theorem takeResponse_of_rspQueue_cons {s : State} {r : Response} {q : List Response} (h : s.rspQueue = r :: q) :
    takeResponse s = { s with rspQueue := q, rspTaken := s.rspTaken ++ [r] } := by
  rw [takeResponse, h]

theorem takeResponse_of_rspQueue_nil {s : State} (h : s.rspQueue = []) : takeResponse s = s := by
  rw [takeResponse, h]

/-- Settles O3: at either port, with something waiting and with nothing. -/
theorem transfersTakeTheOldestFirst : Obligations.TransfersTakeTheOldestFirst := by
  unfold Obligations.TransfersTakeTheOldestFirst
  intro s rest
  refine ⟨fun x q => ?_, ?_, fun r q => ?_, ?_⟩
  · exact (step_takeTx rfl).trans (congrArg _ (takeTx_of_txQueue_cons rfl))
  · exact (step_takeTx rfl).trans (congrArg _ (takeTx_of_txQueue_nil rfl))
  · exact (step_takeResponse rfl).trans (congrArg _ (takeResponse_of_rspQueue_cons rfl))
  · exact (step_takeResponse rfl).trans (congrArg _ (takeResponse_of_rspQueue_nil rfl))

/-! ## The ports in order -/

/-- At one port: the tail of what `crossed`, followed by what waits there, is what was `produced` since reset. -/
def PortInOrder {α : Type} (crossed produced waiting : List α) : Prop :=
  ∃ before since, crossed = before ++ since ∧ produced = since ++ waiting

/-- The port invariant is that of each of the two ports. -/
theorem portsInv_iff (s : State) :
    PortsInv s ↔ PortInOrder s.txSent s.txStream s.txQueue ∧ PortInOrder s.rspTaken s.rspStream s.rspQueue := Iff.rfl

/-- What is produced joins the end of what waits. -/
theorem PortInOrder.produce {α : Type} {crossed produced waiting : List α} (h : PortInOrder crossed produced waiting)
    (new : List α) : PortInOrder crossed (produced ++ new) (waiting ++ new) := by
  obtain ⟨before, since, hcrossed, rfl⟩ := h
  exact ⟨before, since, hcrossed, List.append_assoc ..⟩

/-- What waits longest crosses next. -/
theorem PortInOrder.cross {α : Type} {crossed produced waiting : List α} {x : α}
    (h : PortInOrder crossed produced (x :: waiting)) : PortInOrder (crossed ++ [x]) produced waiting := by
  obtain ⟨before, since, rfl, rfl⟩ := h
  exact ⟨before, since ++ [x], List.append_assoc .., List.append_cons ..⟩

/-- After a reset nothing is produced and nothing waits, whatever crossed before (R200, R201). -/
theorem portInOrder_nil {α : Type} (crossed : List α) : PortInOrder crossed [] [] :=
  ⟨crossed, [], (List.append_nil crossed).symm, rfl⟩

/-- An answer is produced at both ports and crosses neither. -/
theorem portsInv_of_answers {r : Response} {bytes : List Byte} {s t : State} (hans : Answers r bytes s t)
    (h : PortsInv s) : PortsInv t := by
  obtain ⟨htx, hrsp⟩ := (portsInv_iff s).mp h
  rw [portsInv_iff, hans.txSent, hans.txStream, hans.txQueue, hans.rspTaken, hans.rspStream, hans.rspQueue]
  exact ⟨htx.produce bytes, hrsp.produce [r]⟩

theorem portsInv_takeTx {s : State} (h : PortsInv s) : PortsInv (takeTx s) := by
  cases hq : s.txQueue with
  | nil => rwa [takeTx_of_txQueue_nil hq]
  | cons x q =>
    obtain ⟨htx, hrsp⟩ := (portsInv_iff s).mp h
    rw [takeTx_of_txQueue_cons hq]
    exact ⟨(hq ▸ htx).cross, hrsp⟩

theorem portsInv_takeResponse {s : State} (h : PortsInv s) : PortsInv (takeResponse s) := by
  cases hq : s.rspQueue with
  | nil => rwa [takeResponse_of_rspQueue_nil hq]
  | cons r q =>
    obtain ⟨htx, hrsp⟩ := (portsInv_iff s).mp h
    rw [takeResponse_of_rspQueue_cons hq]
    exact ⟨htx, (hq ▸ hrsp).cross⟩

theorem portsInv_resetBlock (s : State) : PortsInv (resetBlock s) :=
  (portsInv_iff _).mpr ⟨portInOrder_nil s.txSent, portInOrder_nil s.rspTaken⟩

/-- Every move of the host keeps the ports in order. -/
theorem portsInv_makeMove {m : HostMove} {s t : State} (hs : PortsInv s) (h : makeMove m s = .next t) : PortsInv t := by
  cases m with
  | command w =>
    obtain ⟨u, r, bytes, hnext, -, hans⟩ := acceptWord_answers w s
    obtain rfl : u = t := Host.Outcome.next.inj (hnext.symm.trans h)
    exact portsInv_of_answers hans hs
  | takeTx => exact Host.Outcome.next.inj h ▸ portsInv_takeTx hs
  | takeResponse => exact Host.Outcome.next.inj h ▸ portsInv_takeResponse hs
  | reset => exact Host.Outcome.next.inj h ▸ portsInv_resetBlock s

/-- Settles O50: a step is a move of the host, and the invariant does not look at the moves still pending. -/
theorem stepsKeepThePortsInOrder : Obligations.StepsKeepThePortsInOrder := by
  unfold Obligations.StepsKeepThePortsInOrder
  intro s t hs h
  obtain ⟨m, rest, -, hm⟩ := exists_makeMove_of_step h
  exact portsInv_makeMove (s := { s with pending := rest }) hs hm

/-! ## The layout of a packet -/

/-- What a packet's trailer covers: its header and its data (R63, R124). -/
def packetBody (code : Word) (d : List Byte) : List Byte := headerBytes code (BitVec.ofNat 16 d.length) ++ d

theorem packetBody_length (code : Word) (d : List Byte) : (packetBody code d).length = 6 + d.length := by
  simp [packetBody]

/-- A packet is its sync marker, the part its trailer covers, and the trailer (R60). -/
theorem packetBytes_eq (code : Word) (d : List Byte) :
    packetBytes code d = syncBytes ++ (packetBody code d ++ trailerBytes (checksum (packetBody code d))) := by
  simp [packetBytes, packetBody]

theorem packetBytes_length (code : Word) (d : List Byte) : (packetBytes code d).length = 12 + d.length := by
  simp only [packetBytes_eq, List.length_append, syncBytes_length, packetBody_length, trailerBytes_length]
  omega

theorem take_packetBytes_sync (code : Word) (d : List Byte) : (packetBytes code d).take 4 = syncBytes := by
  rw [packetBytes_eq, List.take_left' syncBytes_length]

theorem drop_packetBytes_sync (code : Word) (d : List Byte) :
    (packetBytes code d).drop 4 = packetBody code d ++ trailerBytes (checksum (packetBody code d)) := by
  rw [packetBytes_eq, List.drop_left' syncBytes_length]

/-- The header stands at offset 4 (R49). -/
theorem packetBytes_header (code : Word) (d : List Byte) :
    ((packetBytes code d).drop 4).take 6 = headerBytes code (BitVec.ofNat 16 d.length) := by
  rw [drop_packetBytes_sync, packetBody, List.append_assoc, List.take_left' (headerBytes_length _ _)]

/-- The part the trailer covers is the `6 + n` bytes from offset 4 (R49). -/
theorem packetBytes_body (code : Word) (d : List Byte) :
    ((packetBytes code d).drop 4).take (6 + d.length) = packetBody code d := by
  rw [drop_packetBytes_sync, List.take_left' (packetBody_length code d)]

/-- The data stands at offset 10 (R49). -/
theorem packetBytes_data (code : Word) (d : List Byte) : ((packetBytes code d).drop 10).take d.length = d := by
  rw [show 10 = 4 + 6 from rfl, ← List.drop_drop, drop_packetBytes_sync, packetBody, List.append_assoc,
    List.drop_left' (headerBytes_length _ _), List.take_left]

/-- The trailer stands at offset `10 + n` (R49). -/
theorem packetBytes_trailer (code : Word) (d : List Byte) :
    (packetBytes code d).drop (10 + d.length) = trailerBytes (checksum (packetBody code d)) := by
  rw [show 10 + d.length = 4 + (6 + d.length) by omega, ← List.drop_drop, drop_packetBytes_sync,
    List.drop_left' (packetBody_length code d)]

/-- Settles O41: each part of the packet at its offset. -/
theorem packetsAreFramedAsMapped : Obligations.PacketsAreFramedAsMapped := by
  unfold Obligations.PacketsAreFramedAsMapped
  intro code d _ _ p k
  have hk : k = checksum (packetBody code d) := congrArg checksum (packetBytes_body code d)
  refine ⟨packetBytes_length code d, (take_packetBytes_sync code d).trans syncBytes_eq, packetBytes_header code d,
    packetBytes_data code d, ?_⟩
  rw [hk, ← trailerBytes_eq]
  exact packetBytes_trailer code d

end Sys2Proof.Machine
end

section
/-! SUPPORT. The statements about encoding (spec/30_encoding.md): the decoder and the encoder undo each other, a word matches at most
one row of the opcode map, and the header value, `CHECKSUM`, the status codes and the assembler syntax. -/

namespace Sys2Proof.Machine

/-! ## The decoder and the encoder -/

/-- Settles O10: each format's row finds the encoded operands in the fields where the encoder put them. -/
theorem decodeOfEncodeIsTheCommand : Obligations.DecodeOfEncodeIsTheCommand := decode_encode

/-- An operand word of format B is the zero-extension of its low byte (R71). -/
theorem byteOperand_setWidth {b : Word} (h : b.toNat / 256 = 0) : byteOperand (b.setWidth 8) = b := by
  apply BitVec.eq_of_toNat_eq
  simp only [byteOperand, BitVec.toNat_setWidth]
  omega

/-- Each branch of the decoder fixes the opcode and the reserved bits, and the operands keep the rest of the word. -/
theorem encode_of_decode_packWord {op : Byte} {a b : Word} {i : Instr} (h : decode (packWord op a b) = .ok i) :
    encode i = packWord op a b := by
  rw [decode_packWord] at h
  split_ifs at h with hnop hinit hbyte hrd hhdr hstart hdata <;> cases h
  · obtain ⟨rfl, rfl, rfl⟩ := hnop; rfl
  · obtain ⟨rfl, rfl, rfl⟩ := hinit; rfl
  · obtain ⟨rfl, rfl, hb⟩ := hbyte; rw [encode, byteOperand_setWidth hb]; rfl
  · obtain ⟨rfl, rfl, rfl⟩ := hrd; rfl
  · subst hhdr; rfl
  · subst hstart; rfl
  · obtain ⟨rfl, rfl, hb⟩ := hdata; rw [encode, byteOperand_setWidth hb]; rfl

/-- Settles O11: every word is packed from its three fields. -/
theorem onlyEncodingsDecode : Obligations.OnlyEncodingsDecode := by
  unfold Obligations.OnlyEncodingsDecode
  exact forall_packWord fun _ _ _ _ => encode_of_decode_packWord

/-! ## The rows of the opcode map -/

/-- Every row's mask covers the whole opcode, so a word that matches the row has the row's opcode (R73, R74). -/
theorem opField_of_matches {w : CommandWord} {r : OpcodeRow} (hr : r ∈ opcodeMap) (h : w &&& r.mask = r.matchBits) :
    opField w = opField r.matchBits := by
  have hmask : ∀ r ∈ opcodeMap, opField r.mask = BitVec.allOnes 8 := by decide
  rw [← h, opField, opField, BitVec.extractLsb'_and, show r.mask.extractLsb' 32 8 = _ from hmask r hr, BitVec.and_allOnes]

/-- The rows have different opcodes, so no word matches two of them (R74). -/
theorem row_unique {w : CommandWord} {q r : OpcodeRow} (hq : q ∈ opcodeMap) (hr : r ∈ opcodeMap)
    (hwq : w &&& q.mask = q.matchBits) (hwr : w &&& r.mask = r.matchBits) : q = r := by
  have hdistinct : ∀ q ∈ opcodeMap, ∀ r ∈ opcodeMap, opField q.matchBits = opField r.matchBits → q = r := by decide
  exact hdistinct q hq r hr ((opField_of_matches hq hwq).symm.trans (opField_of_matches hr hwr))

theorem matchesWord_eq_true (r : OpcodeRow) (w : CommandWord) :
    r.matchesWord w = true ↔ w &&& r.mask = r.matchBits := beq_iff_eq

/-- The decoder refuses exactly the words that no row matches: its branches are the rows of the map, in order (R73, R75). -/
theorem exists_decode_error_iff (w : CommandWord) :
    (∃ e, decode w = .error e) ↔ ∀ r ∈ opcodeMap, w &&& r.mask ≠ r.matchBits := by
  simp only [opcodeMap, List.forall_mem_cons, ne_eq, ← matchesWord_eq_true]
  unfold decode
  split_ifs <;> simp [*]

/-- Settles O12: a word that decodes matches some row, and no other; a word that does not decode matches none. -/
theorem wordsMatchOneRowOrNone : Obligations.WordsMatchOneRowOrNone := by
  unfold Obligations.WordsMatchOneRowOrNone
  intro w
  cases hw : decode w with
  | ok i =>
    have hsome : ¬ ∀ r ∈ opcodeMap, w &&& r.mask ≠ r.matchBits := by
      rw [← exists_decode_error_iff, hw]
      simp
    push Not at hsome
    obtain ⟨r, hr, hmatch⟩ := hsome
    exact .inl ⟨⟨r, hr, hmatch, fun q hq hwq => row_unique hq hr hwq hmatch⟩, i, rfl⟩
  | error e => exact .inr ⟨(exists_decode_error_iff w).1 ⟨e, hw⟩, e, rfl⟩

/-! ## Well-formed words -/

/-- The encoder makes legal words only (R75). -/
theorem wordWellFormed_encode (i : Instr) : wordWellFormed (encode i) = true := by
  cases i with
  | nop => exact Laws.EncodingShape.nop.2
  | crcinit => exact Laws.EncodingShape.crcinit.2
  | crcbyte x => exact (Laws.EncodingShape.crcbyte x).2
  | crcrd => exact Laws.EncodingShape.crcrd.2
  | hdrbld code dataLen => exact (Laws.EncodingShape.hdrbld code dataLen).2
  | pktstart code dataLen => exact (Laws.EncodingShape.pktstart code dataLen).2
  | pktdata x => exact (Laws.EncodingShape.pktdata x).2

theorem formatOf_eq_z (op : Byte) : formatOf op = some .z ↔ op = 0#8 ∨ op = 1#8 ∨ op = 3#8 := by
  revert op; decide

theorem formatOf_eq_b (op : Byte) : formatOf op = some .b ↔ op = 2#8 ∨ op = 6#8 := by
  revert op; decide

theorem formatOf_eq_cl (op : Byte) : formatOf op = some .cl ↔ op = 4#8 ∨ op = 5#8 := by
  revert op; decide

/-- `b[15:8]` is the high byte of `b` (R70, R71). -/
theorem bHighField_toNat (w : CommandWord) : (bHighField w).toNat = (bField w).toNat / 256 := by
  simp only [bHighField, bField, BitVec.extractLsb'_toNat, Nat.shiftRight_eq_div_pow]
  omega

/-- A word is an encoding if its format's opcode carries the operands of that format and nothing else (R71, R74). -/
theorem exists_encode_of_wordWellFormed {w : CommandWord} (h : wordWellFormed w = true) : ∃ i, encode i = w := by
  have hw := packWord_fields w
  cases hf : formatOf (opField w) with
  | none => simp [wordWellFormed, opcodeDefined, hf] at h
  | some f =>
    cases f with
    | z =>
      obtain ⟨ha, hb⟩ : aField w = 0#16 ∧ bField w = 0#16 := by
        simpa [wordWellFormed, opcodeDefined, reservedBitsZero, hf] using h
      rw [ha, hb] at hw
      rcases (formatOf_eq_z _).1 hf with hop | hop | hop <;> rw [hop] at hw
      · exact ⟨.nop, hw⟩
      · exact ⟨.crcinit, hw⟩
      · exact ⟨.crcrd, hw⟩
    | b =>
      obtain ⟨ha, hhigh⟩ : aField w = 0#16 ∧ bHighField w = 0#8 := by
        simpa [wordWellFormed, opcodeDefined, reservedBitsZero, hf] using h
      have hb : (bField w).toNat / 256 = 0 := by rw [← bHighField_toNat, hhigh]; rfl
      rw [ha, ← byteOperand_setWidth hb] at hw
      rcases (formatOf_eq_b _).1 hf with hop | hop <;> rw [hop] at hw
      · exact ⟨.crcbyte _, hw⟩
      · exact ⟨.pktdata _, hw⟩
    | cl =>
      rcases (formatOf_eq_cl _).1 hf with hop | hop <;> rw [hop] at hw
      · exact ⟨.hdrbld _ _, hw⟩
      · exact ⟨.pktstart _ _, hw⟩

/-- Settles O13: the well-formed words and the words that decode are both the encodings. -/
theorem wellFormedWordsAreTheOnesThatDecode : Obligations.WellFormedWordsAreTheOnesThatDecode := by
  unfold Obligations.WellFormedWordsAreTheOnesThatDecode
  intro w
  constructor
  · intro h
    obtain ⟨i, rfl⟩ := exists_encode_of_wordWellFormed h
    exact ⟨i, decode_encode i⟩
  · rintro ⟨i, h⟩
    rw [← onlyEncodingsDecode w i h]
    exact wordWellFormed_encode i

/-! ## The header value -/

/-- On a legal code the OR of R65 is a sum. -/
theorem headerCommandWord_toNat {code : Word} (h : code.toNat ≤ 255) :
    (headerCommandWord code).toNat = 0x2000 + code.toNat := by
  rw [headerCommandWord, BitVec.toNat_or]
  exact (Nat.two_pow_add_eq_or_of_lt (i := 13) (by omega) 1).symm

/-- On a legal length the bias of R68 does not wrap. -/
theorem headerLengthWord_toNat {len : Word} (h : len.toNat ≤ 65534) : (headerLengthWord len).toNat = len.toNat + 1 := by
  rw [headerLengthWord, Config.lenBias, BitVec.toNat_ofNat]
  omega

/-- The header value by its three words (R69). -/
theorem hdr48_toNat (code len : Word) :
    (hdr48 code len).toNat =
      (headerCommandWord code).toNat * 2 ^ 32 + 0xC000 * 2 ^ 16 + (headerLengthWord len).toNat := by
  have hlen := (headerLengthWord len).isLt
  have hseq : Config.seqWord.toNat = 0xC000 := rfl
  rw [hdr48, BitVec.toNat_append, ← Nat.shiftLeft_add_eq_or_of_lt hlen, BitVec.toNat_append,
    ← Nat.shiftLeft_add_eq_or_of_lt Config.seqWord.isLt, hseq]
  omega

/-- On legal operands the header value is this number (R69). -/
theorem hdr48_toNat_of_legal {code len : Word} (hc : code.toNat ≤ 255) (hl : len.toNat ≤ 65534) :
    (hdr48 code len).toNat = (0x2000 + code.toNat) * 2 ^ 32 + 0xC000 * 2 ^ 16 + (len.toNat + 1) := by
  rw [hdr48_toNat, headerCommandWord_toNat hc, headerLengthWord_toNat hl]

/-- On legal operands the bytes of the header, three of them fixed (R69). -/
theorem headerBytes_of_legal {code len : Word} (hc : code.toNat ≤ 255) (hl : len.toNat ≤ 65534) :
    headerBytes code len = [0x20#8, code.extractLsb' 0 8, 0xC0#8, 0x00#8,
      BitVec.ofNat 8 ((len.toNat + 1) / 256), BitVec.ofNat 8 (len.toNat + 1)] := by
  rw [headerBytes_eq_be]
  simp only [List.cons.injEq, and_true, ← BitVec.toNat_inj, BitVec.extractLsb'_toNat, Nat.shiftRight_eq_div_pow,
    hdr48_toNat_of_legal hc hl, BitVec.toNat_ofNat]
  omega

/-- Settles O39: the number, the bytes that make it up, and the rule's example. -/
theorem headerBytesAreAsListed : Obligations.HeaderBytesAreAsListed := by
  unfold Obligations.HeaderBytesAreAsListed
  refine ⟨fun code len hc hl => ⟨?_, headerBytes_of_legal hc hl⟩, by decide⟩
  have hor : 0x2000 ||| code.toNat = (headerCommandWord code).toNat := by rw [headerCommandWord, BitVec.toNat_or]; rfl
  rw [hor, hdr48_toNat, headerLengthWord_toNat hl]

/-! ## `CHECKSUM` -/

/-- Outside a frame `CRCINIT` is executed (R125). -/
theorem afterCommand_crcinit_of_closed {s : State} (h : s.remaining = 0#16) :
    afterCommand .crcinit s = respond .ok 0#48 (setCrc Config.crcInit s) := by
  rw [afterCommand, (commandError_crcinit_eq_none s).2 h]
  rfl

/-- Outside a frame `CRCBYTE` is executed (R126). -/
theorem afterCommand_crcbyte_of_closed {s : State} (h : s.remaining = 0#16) (x : Byte) :
    afterCommand (.crcbyte x) s = respond .ok 0#48 (setCrc (crcByte s.crc x) s) := by
  rw [afterCommand, (commandError_crcbyte_eq_none x s).2 h]
  rfl

/-- Outside a frame one `CRCBYTE` for each byte feeds the bytes to `crc`, each answered `OK`, and the commands after them go on from
there (R122, R126). -/
theorem execAll_crcbytes_append (bytes : List Byte) (is : List Instr) {s : State} (h : s.remaining = 0#16) :
    execAll (bytes.map .crcbyte ++ is) s =
      execAll is { s with crc := crcBytes s.crc bytes
                          rspStream := s.rspStream ++ List.replicate bytes.length ⟨.ok, 0#48⟩
                          rspQueue := s.rspQueue ++ List.replicate bytes.length ⟨.ok, 0#48⟩ } := by
  induction bytes generalizing s with
  | nil => simp
  | cons x bytes ih =>
    rw [List.map_cons, List.cons_append, execAll_cons, afterCommand_crcbyte_of_closed h, ih (by simpa using h)]
    simp [respond, setCrc, List.replicate_succ]

/-- `CRCRD` answers `crc` in every state (R127). -/
theorem afterCommand_crcrd (s : State) : afterCommand .crcrd s = respond .ok (s.crc.setWidth 48) s := rfl

/-- Settles O45: `CRCINIT` forgets what `crc` held, the bytes are fed from the initial value, and `CRCRD` answers the result. -/
theorem checksumMacroReturnsTheChecksum : Obligations.ChecksumMacroReturnsTheChecksum := by
  unfold Obligations.ChecksumMacroReturnsTheChecksum
  intro s bytes h
  rw [checksumMacro, execAll_cons, afterCommand_crcinit_of_closed h, execAll_crcbytes_append _ _ (by simpa using h),
    execAll_cons, afterCommand_crcrd, execAll_nil]
  simp [respond, setCrc, checksum, List.replicate_succ]

/-! ## Block errors at the boundary -/

/-- Every status but `OK` is an error of the block (R79, R105). -/
theorem blockError_eq_none (st : Status) : blockError st = none ↔ st = .ok := by
  cases st <;> simp [blockError]

/-- The kind of a block error keeps the number of its status (R105, R177). -/
theorem kindStatus_of_blockError {st : Status} {e : AssembleError} (h : blockError st = some e) :
    kindStatus (errorKind e) = some (statusCode st) := by
  cases st <;> cases h <;> rfl

/-- The host's three kinds have no status code (R98, R177). -/
theorem kindStatus_eq_none (k : ErrorKind) :
    kindStatus k = none ↔ k = .unknownCommand ∨ k = .missingField ∨ k = .invalidField := by
  cases k <;> simp [kindStatus]

/-- The seven kinds of R177, the host's three and the block's four. -/
def allErrorKinds : List ErrorKind :=
  [.unknownCommand, .missingField, .invalidField, .invalidCode, .lengthOverflow, .protocolError, .illegalOp]

theorem mem_allErrorKinds (k : ErrorKind) : k ∈ allErrorKinds := by
  cases k <;> decide

/-- Settles O58: the boundary's error is that of the response's status, and its kind keeps the status code. -/
theorem blockErrorsReachTheBoundaryAsTheirStatus : Obligations.BlockErrorsReachTheBoundaryAsTheirStatus := by
  unfold Obligations.BlockErrorsReachTheBoundaryAsTheirStatus
  refine ⟨fun P r => ⟨fun hok => ?_, fun herr => ?_⟩, kindStatus_eq_none, allErrorKinds, by decide, rfl, mem_allErrorKinds⟩
  · rw [responseReply, (blockError_eq_none r.status).2 hok, Option.map_none]
  · obtain ⟨e, he⟩ := Option.ne_none_iff_exists'.1 (mt (blockError_eq_none r.status).1 herr)
    exact ⟨errorReply P e, by rw [responseReply, he, Option.map_some], kindStatus_of_blockError he⟩

/-! ## The status codes -/

theorem statusCode_injective : Function.Injective statusCode := by
  intro a b
  cases a <;> cases b <;> decide

theorem statusCode_lt (st : Status) : (statusCode st).toNat < 5 := by
  cases st <;> decide

/-- Settles O9. -/
theorem statusCodesAreNumberedAndDistinct : Obligations.StatusCodesAreNumberedAndDistinct :=
  ⟨rfl, rfl, rfl, rfl, rfl, fun _ _ h => statusCode_injective h, statusCode_lt⟩

/-! ## The worked encodings -/

/-- A code above 255 is refused before anything is done (R110, R170). -/
theorem afterCommand_hdrbld_of_codeTooBig {code : Word} (h : codeTooBig code = true) (dataLen : Word) (s : State) :
    afterCommand (.hdrbld code dataLen) s = respond .invalidCode 0#48 s := by
  simp [afterCommand, commandError, allowedIn, h]

/-- A step on a word that does not decode answers `IllegalOp` and does nothing else (R173). -/
theorem step_of_decode_error {w : CommandWord} {e : DecodeError} (h : decode w = .error e) (s : State)
    (rest : List HostMove) :
    step { s with pending := .command w :: rest } = .next (respond .illegalOp 0#48 { s with pending := rest }) := by
  rw [step_command, acceptWord_of_decode_error h]

/-- Settles O14: the words of R83 by evaluation, in both directions, and the answers of three of them. -/
theorem workedEncodingsAreAsListed : Obligations.WorkedEncodingsAreAsListed := by
  unfold Obligations.WorkedEncodingsAreAsListed
  refine ⟨rfl, rfl, rfl, rfl, rfl, rfl, rfl, rfl, by decide, by decide, by decide, by decide, by decide, by decide, by decide,
    by decide, fun s => ?_, fun s rest w hw => ?_⟩
  · rw [exec_eq_next, afterCommand_hdrbld_of_codeTooBig (by decide)]
    rfl
  · rcases hw with rfl | rfl
    · exact step_of_decode_error (e := .undefinedOpcode 0x07#8) (by decide) s rest
    · exact step_of_decode_error (e := .undefinedOpcode 0xFF#8) (by decide) s rest

/-! ## The assembler -/

/-- A byte's digits read as the byte (R81). -/
theorem prefixedHex_byte (x : Byte) : prefixedHex (hexText x 2) = some x.toNat := by
  have hdigits : digitsFrom 16 hexDigit 0 ([x.extractLsb' 4 4, x.extractLsb' 0 4].map nibbleChar) = _ := digitsFrom_nibbles _ 0
  have hx := x.isLt
  rw [hexText_byte]
  refine hdigits.trans ?_
  simp only [List.foldl_cons, List.foldl_nil, BitVec.extractLsb'_toNat, Nat.shiftRight_eq_div_pow, Option.some.injEq]
  omega

theorem hexText_byte_chars (x : Byte) : ∀ c ∈ hexText x 2, isBlank c = false ∧ c ≠ ',' ∧ c ≠ ';' := by
  rw [hexText_byte]
  intro c hc
  simp only [List.mem_cons, List.not_mem_nil, or_false] at hc
  rcases hc with rfl | rfl | rfl | rfl
  · decide
  · decide
  all_goals exact (nibbleChar_reads _).2

/-- Nothing is trimmed from a text without blanks. -/
theorem trim_of_no_blank {t : Text} (h : ∀ c ∈ t, isBlank c = false) : trim t = t := by
  have hdrop : ∀ u : Text, (∀ c ∈ u, isBlank c = false) → u.dropWhile isBlank = u := by
    intro u hu
    cases u with
    | nil => rfl
    | cons a u => rw [List.dropWhile_cons, hu a (by simp)]; rfl
  rw [trim, hdrop t h, hdrop t.reverse (by simpa using h), List.reverse_reverse]

/-- A single operand (R81). -/
theorem asmOperands_byte (x : Byte) : asmOperands (hexText x 2) = some [x.toNat] := by
  have hchars := hexText_byte_chars x
  have hne : (hexText x 2).isEmpty = false := rfl
  simp only [asmOperands, hne, Bool.false_eq_true, if_false, splitCommas_none _ fun c hc => (hchars c hc).2.1, asmNumbers,
    trim_of_no_blank fun c hc => (hchars c hc).1, asmNumber, prefixedHex_byte]

/-- The mnemonics of the commands (R74, R81). -/
def mnemonics : List Text :=
  ["NOP".toList, "CRCINIT".toList, "CRCBYTE".toList, "CRCRD".toList, "HDRBLD".toList, "PKTSTART".toList, "PKTDATA".toList]

/-- Only a mnemonic of the list makes a command. -/
theorem mem_mnemonics_of_command {m : Text} {ns : List Nat} {i : Instr} (h : asmCommand m ns = some i) : m ∈ mnemonics := by
  unfold asmCommand at h
  split_ifs at h <;> simp [mnemonics, *]

theorem mnemonic_ne_nil {m : Text} {ns : List Nat} {i : Instr} (h : asmCommand m ns = some i) : m ≠ [] := by
  have hall : ∀ m ∈ mnemonics, m ≠ [] := by decide
  exact hall m (mem_mnemonics_of_command h)

theorem mnemonic_chars {m : Text} {ns : List Nat} {i : Instr} (h : asmCommand m ns = some i) :
    ∀ c ∈ m, isBlank c = false ∧ c ≠ ';' := by
  have hall : ∀ m ∈ mnemonics, ∀ c ∈ m, isBlank c = false ∧ c ≠ ';' := by simp [mnemonics, isBlank]
  exact hall m (mem_mnemonics_of_command h)

/-- A command's mnemonic is neither `CHECKSUM` nor `PACKET`, and stands for the command whatever the rest of the line (R81, R82). -/
theorem asmOperation_of_command {m : Text} {ns : List Nat} {i : Instr} (h : asmCommand m ns = some i) (rest : Text) :
    asmOperation m ns rest = some [i] := by
  have hall : ∀ m ∈ mnemonics, m ≠ "CHECKSUM".toList ∧ m ≠ "PACKET".toList := by decide
  obtain ⟨hchecksum, hpacket⟩ := hall m (mem_mnemonics_of_command h)
  rw [asmOperation, if_neg hchecksum, if_neg hpacket, h]

/-- A line of a mnemonic and one byte (R81). -/
theorem asmLine_byte {m : Text} {x : Byte} {i : Instr} (h : asmCommand m [x.toNat] = some i) :
    asmLine (m ++ ' ' :: hexText x 2) = some [i] := by
  obtain ⟨a, m', rfl⟩ := List.exists_cons_of_ne_nil (mnemonic_ne_nil h)
  have hblank := fun c hc => (mnemonic_chars h c hc).1
  have hx := hexText_byte_chars x
  have hcomment : ∀ c ∈ (a :: m') ++ ' ' :: hexText x 2, c ≠ ';' := by
    intro c hc
    rcases List.mem_append.1 hc with hc | hc
    · exact (mnemonic_chars h c hc).2
    · rcases List.mem_cons.1 hc with rfl | hc
      · decide
      · exact (hx c hc).2.2
  have hbody : trim ((a :: m') ++ ' ' :: hexText x 2) = (a :: m') ++ ' ' :: hexText x 2 := by
    rw [hexText_byte]
    simpa using trim_eq_self (m' ++ [' ', '0', 'x', nibbleChar (x.extractLsb' 4 4)]) a (nibbleChar (x.extractLsb' 0 4))
      (hblank a List.mem_cons_self) (nibbleChar_reads _).2.1
  have hoperand : trim (' ' :: hexText x 2) = hexText x 2 := by
    rw [trim_blank, trim_of_no_blank fun c hc => (hx c hc).1]
  have hne : ((a :: m') ++ ' ' :: hexText x 2).isEmpty = false := rfl
  simp only [asmLine, takeWhile_no_comment _ hcomment, hbody, hne, dropWhile_mnemonic _ _ hblank, hoperand, asmOperands_byte,
    takeWhile_mnemonic _ _ hblank, Bool.false_eq_true, if_false, asmOperation_of_command h]

/-- A line of a mnemonic and two words (R81). -/
theorem asmLine_words {m : Text} {x y : Word} {i : Instr} (h : asmCommand m [x.toNat, y.toNat] = some i) :
    asmLine (m ++ ' ' :: (hexText x 4 ++ ',' :: ' ' :: hexText y 4)) = some [i] := by
  obtain ⟨a, m', hm⟩ := List.exists_cons_of_ne_nil (mnemonic_ne_nil h)
  rw [asmLine_two_words m a m' hm (mnemonic_chars h), asmOperation_of_command h]

/-- A byte fits the operand of format B (R71). -/
theorem asmB_byte (f : Byte → Instr) (x : Byte) : asmB f [x.toNat] = some (f x) := by
  rw [asmB, if_pos x.isLt, BitVec.ofNat_toNat, BitVec.setWidth_eq]

/-- Two words fit the operands of format CL (R71). -/
theorem asmCL_words (f : Word → Word → Instr) (x y : Word) : asmCL f [x.toNat, y.toNat] = some (f x y) := by
  rw [asmCL, if_pos ⟨x.isLt, y.isLt⟩, BitVec.ofNat_toNat, BitVec.ofNat_toNat, BitVec.setWidth_eq, BitVec.setWidth_eq]

/-- Settles O60: the mnemonic selects its format, and the format's operands are read as the numbers they write. -/
theorem assemblerReadsWhatItWrites : Obligations.AssemblerReadsWhatItWrites := by
  unfold Obligations.AssemblerReadsWhatItWrites
  intro i
  cases i with
  | nop => decide
  | crcinit => decide
  | crcbyte x => exact asmLine_byte (m := "CRCBYTE".toList) (asmB_byte .crcbyte x)
  | crcrd => decide
  | hdrbld code dataLen => exact asmLine_words (m := "HDRBLD".toList) (asmCL_words .hdrbld code dataLen)
  | pktstart code dataLen => exact asmLine_words (m := "PKTSTART".toList) (asmCL_words .pktstart code dataLen)
  | pktdata x => exact asmLine_byte (m := "PKTDATA".toList) (asmB_byte .pktdata x)

end Sys2Proof.Machine
end

section
/-! SUPPORT. The statements about the host's side (spec/40_host_software.md): the data field of each command and its errors, and
what a catalog selects. -/

namespace Sys2Proof.Machine

/-! ## The data fields of Delete File, List Files and Unzip File -/

theorem digitsValue_of_ne_nil (base : Nat) (digit : Char → Option Nat) {t : Text} (h : t ≠ []) :
    digitsValue base digit t = digitsFrom base digit 0 t := by
  cases t with
  | nil => exact absurd rfl h
  | cons c t => rfl

/-- A character that is no digit makes a text no number. -/
theorem digitsValue_eq_none_of_mem (base : Nat) (digit : Char → Option Nat) {t : Text} {c : Char} (hc : c ∈ t)
    (hd : digit c = none) : digitsValue base digit t = none := by
  rw [digitsValue_of_ne_nil base digit (List.ne_nil_of_mem hc), digitsFrom_none base digit t 0 c hc hd]

/-- One or more digits of nibbles read as the number they write (R93). -/
theorem digitsValue_nibbles {ds : List (BitVec 4)} (h : ds ≠ []) :
    digitsValue 16 hexDigit (ds.map nibbleChar) = some (ds.foldl (fun k q => 16 * k + q.toNat) 0) := by
  rw [digitsValue_of_ne_nil 16 hexDigit (by simpa using h), digitsFrom_nibbles]

/-- A text of digits has no `0x` before it: neither `x` nor `X` is a digit (R93; log entry 11). -/
theorem hexNumber_of_digits {t : Text} (h : ∀ c ∈ t, hexDigit c ≠ none) : hexNumber t = digitsValue 16 hexDigit t := by
  unfold hexNumber
  split
  · exact absurd (by decide) (h 'x' (by simp))
  · exact absurd (by decide) (h 'X' (by simp))
  · rfl

/-- A character that is neither a digit nor the `x` after a 0 makes a text no base-16 number (R93; log entry 11). -/
theorem hexNumber_eq_none_of_mem {t : Text} {c : Char} (hc : c ∈ t) (hd : hexDigit c = none) (hx : c ≠ 'x') (hX : c ≠ 'X') :
    hexNumber t = none := by
  have h0 : c ≠ '0' := by rintro rfl; exact absurd hd (by decide)
  unfold hexNumber
  split
  · exact digitsValue_eq_none_of_mem 16 hexDigit (by simpa [h0, hx] using hc) hd
  · exact digitsValue_eq_none_of_mem 16 hexDigit (by simpa [h0, hX] using hc) hd
  · exact digitsValue_eq_none_of_mem 16 hexDigit hc hd

theorem encodeDeleteFile_ok (P : HostParams) (d : CommandDefinition) {v : FieldValues} {f : Nat} {name : List Byte}
    (hflag : hexField v "Directory Flag".toList 1 = .ok f) (hname : textField v "File/Directory Name".toList = .ok name) :
    encodeDeleteFile P d v = .ok (BitVec.ofNat 8 f :: (be16 name.length ++ name)) := by
  simp only [encodeDeleteFile, hflag, hname]

theorem encodeListFiles_ok {v : FieldValues} {path : List Byte} (hpath : textField v "Directory Path".toList = .ok path) :
    encodeListFiles v = .ok (be16 path.length ++ path) := by
  simp only [encodeListFiles, hpath]

theorem encodeUnzipFile_ok (P : HostParams) (d : CommandDefinition) {v : FieldValues} {zip dest : List Byte}
    (hzip : textField v "ZipFile Name".toList = .ok zip)
    (hdest : textField v "Destination Directory Path".toList = .ok dest) :
    encodeUnzipFile P d v = .ok (be16 zip.length ++ be16 dest.length ++ zip ++ dest) := by
  simp only [encodeUnzipFile, hzip, hdest]

/-- Settles O52: how a flag is read, then each encoder on inputs that its readers accept. -/
theorem textFieldEncodersAreAsListed : Obligations.TextFieldEncodersAreAsListed := by
  unfold Obligations.TextFieldEncodersAreAsListed
  refine ⟨fun ds hds => ⟨?_, digitsValue_nibbles hds⟩, fun t c => hexNumber_eq_none_of_mem,
    fun P c v f n x y => ⟨?_, ?_, ?_⟩⟩
  · rw [hexNumber_of_digits, digitsValue_nibbles hds]
    simp [nibbleChar_reads]
  · intro hc hf hn hlt hx hlen
    rw [encodeFields_deleteFile P c v hc, encodeDeleteFile_ok P c (hexField_ok v _ f 1 n hf hn hlt) (textField_ok v _ x hx hlen),
      be16_eq _ hlen]
    rfl
  · intro hc hx hlen
    rw [encodeFields_listFiles P c v hc, encodeListFiles_ok (textField_ok v _ x hx hlen), be16_eq _ hlen]
  · intro hc hx hy hxlen hylen
    rw [encodeFields_unzipFile P c v hc, encodeUnzipFile_ok P c (textField_ok v _ x hx hxlen) (textField_ok v _ y hy hylen),
      be16_eq _ hxlen, be16_eq _ hylen]
    rfl

/-! ## The data field of Request File -/

theorem encodeRequestFile_ok (P : HostParams) (d : CommandDefinition) {v : FieldValues} {i f x k : Nat}
    (hid : intField P v "Transfer ID".toList 2 = .ok i) (hflag : intField P v "Transfer Flag".toList 1 = .ok f)
    (hindex : intField P v "Chunk Index".toList 2 = .ok x) (hchunks : chunkCount P v (.ok f) = .ok k) :
    encodeRequestFile P d v = .ok (be16 i ++ [BitVec.ofNat 8 f] ++ be16 x ++ be16 k) := by
  simp only [encodeRequestFile, hid, hflag, hindex, hchunks]

/-- Settles O53: the chunk count is forced with the flag 255 and read with another one. -/
theorem requestFileForcesTheChunkCount : Obligations.RequestFileForcesTheChunkCount := by
  unfold Obligations.RequestFileForcesTheChunkCount
  intro P c v ti tf tx i f x hc hti hi hilt htf hf hflt htx hx hxlt
  have hencode : ∀ k, k < 65536 → chunkCount P v (.ok f) = .ok k → encodeFields P c v =
      .ok [BitVec.ofNat 8 (i / 256), BitVec.ofNat 8 i, BitVec.ofNat 8 f, BitVec.ofNat 8 (x / 256), BitVec.ofNat 8 x,
        BitVec.ofNat 8 (k / 256), BitVec.ofNat 8 k] := by
    intro k hk hchunks
    rw [encodeFields_requestFile P c v hc, encodeRequestFile_ok P c (intField_ok P v _ ti 2 i hti hi hilt)
      (intField_ok P v _ tf 1 f htf hf hflt) (intField_ok P v _ tx 2 x htx hx hxlt) hchunks, be16_eq i hilt, be16_eq x hxlt,
      be16_eq k hk]
    rfl
  constructor
  · rintro rfl
    exact hencode 0 (by decide) (chunkCount_forced P v)
  · intro hne tk k htk hk hklt
    exact hencode k hklt ((chunkCount_required P v f hne).trans (intField_ok P v _ tk 2 k htk hk hklt))

/-! ## Where there is no data field to hand on -/

theorem lookupCommand_eq_none (cat : Catalog) (code : Int) :
    lookupCommand cat code = none ↔ ∀ d ∈ cat, (d.code.toNat : Int) ≠ code := by
  simp [lookupCommand]

theorem dataField_of_lookup_none {P : HostParams} {code : Int} (h : lookupCommand P.catalog code = none) (v : FieldValues) :
    dataField P code v = .error .unknownCommand := by
  rw [dataField, h]

/-- An error of the lookup or of the encoder is passed on (R100). -/
theorem handedData_of_dataField_error {P : HostParams} {code : Int} {v : FieldValues} {e : AssembleError}
    (h : dataField P code v = .error e) : handedData P code v = .error e := by
  rw [handedData, h]

/-- Without a data field `assemble` fails with the same error and the host issues no command (R101, R206). -/
theorem no_packet_of_handedData_error {P : HostParams} {code : Int} {v : FieldValues} {e : AssembleError}
    (h : handedData P code v = .error e) : assemble P code v = .error e ∧ hostCommands P code v = .error e := by
  rw [assemble, hostCommands, h]
  exact ⟨rfl, rfl⟩

/-- A name with no encoder of its own gives the sentinel's bytes (R97). -/
theorem encodeFields_default (P : HostParams) {d : CommandDefinition} (v : FieldValues)
    (h : d.name ∉ ["Delete File".toList, "List Files".toList, "Unzip File".toList, "Request File".toList]) :
    encodeFields P d v = .ok encodeDefault := by
  simp only [List.mem_cons, List.not_mem_nil, or_false, not_or] at h
  obtain ⟨hdelete, hlist, hunzip, hrequest⟩ := h
  rw [encodeFields, if_neg hdelete, if_neg hlist, if_neg hunzip, if_neg hrequest]

/-- Settles O54: the lookup finds nothing, and the encoder of every other name is the sentinel. -/
theorem unknownCodesFailAndOtherNamesGetTheSentinel : Obligations.UnknownCodesFailAndOtherNamesGetTheSentinel := by
  unfold Obligations.UnknownCodesFailAndOtherNamesGetTheSentinel
  refine ⟨fun P code v habsent => ?_, fun P d v hname => ?_⟩
  · have hnone := (lookupCommand_eq_none P.catalog code).2 habsent
    exact no_packet_of_handedData_error (handedData_of_dataField_error (dataField_of_lookup_none hnone v))
  · have hbytes : encodeDefault = [0xDE#8, 0xAD#8, 0xBE#8, 0xEF#8] := by decide
    rw [encodeFields_default P v hname, hbytes]

/-! ## The revealed codes -/

/-- A definition of a well-formed catalog is the one its code selects (R90, R92). -/
theorem dataField_of_mem {P : HostParams} (hcat : catalogWellFormed P.catalog = true) {d : CommandDefinition}
    (hd : d ∈ P.catalog) (v : FieldValues) : dataField P d.code.toNat v = encodeFields P d v :=
  dataField_of_lookup P _ d v (lookupCommand_mem P.catalog d (catalogWellFormed_nodup P.catalog hcat) hd)

/-- A revealed code selects the encoder of a definition with the revealed name (R99). -/
theorem exists_dataField_of_revealed {P : HostParams} (hcat : catalogWellFormed P.catalog = true) {code : Byte} {name : Text}
    (h : (code, name) ∈ revealedCommands) :
    ∃ c : CommandDefinition, c.name = name ∧ ∀ v, dataField P code.toNat v = encodeFields P c v := by
  obtain ⟨c, hc, rfl, hname⟩ := catalogWellFormed_revealed P.catalog hcat code name h
  exact ⟨c, hname, dataField_of_mem hcat hc⟩

/-- Settles O56: the catalog holds the revealed pairs, and the name of each selects its encoder. -/
theorem revealedCodesSelectTheirEncoders : Obligations.RevealedCodesSelectTheirEncoders := by
  unfold Obligations.RevealedCodesSelectTheirEncoders
  intro P hcat
  obtain ⟨del, hdel, hdelData⟩ := exists_dataField_of_revealed hcat (code := 0x42#8) (name := "Delete File".toList) (by decide)
  obtain ⟨lst, hlst, hlstData⟩ := exists_dataField_of_revealed hcat (code := 0xFE#8) (name := "List Files".toList) (by decide)
  obtain ⟨req, hreq, hreqData⟩ := exists_dataField_of_revealed hcat (code := 0x16#8) (name := "Request File".toList) (by decide)
  obtain ⟨zip, hzipMem, hzip⟩ := catalogWellFormed_codeless P.catalog hcat
  refine ⟨⟨del, hdel, fun v => ?_⟩, fun v => ?_, ⟨req, hreq, fun v => ?_⟩, ⟨zip.code, zip, hzip, fun v => ?_⟩⟩
  · exact (hdelData v).trans (encodeFields_deleteFile P del v hdel)
  · exact (hlstData v).trans (encodeFields_listFiles P lst v hlst)
  · exact (hreqData v).trans (encodeFields_requestFile P req v hreq)
  · exact (dataField_of_mem hcat hzipMem v).trans (encodeFields_unzipFile P zip v hzip)

/-! ## Field errors -/

/-- An absent key is `MissingField` for every reader (R98). -/
theorem fields_missing (P : HostParams) {v : FieldValues} {name : Text} (bytes : Nat) (h : valueOf v name = none) :
    hexField v name bytes = .error (.missingField name) ∧ intField P v name bytes = .error (.missingField name) ∧
      textField v name = .error (.missingField name) := by
  simp only [hexField, intField, textField, h, and_self]

/-- An integer input that cannot be parsed (R98). -/
theorem intField_invalid {P : HostParams} {v : FieldValues} {name t : Text} (bytes : Nat) (h : valueOf v name = some t)
    (hp : P.parseInteger t = none) : intField P v name bytes = .error (.invalidField name (.integer bytes)) := by
  simp only [intField, h, hp, fitting]

/-- A field has no error exactly when it has a value. -/
theorem errorOf_eq_nil {α : Type} (x : Except AssembleError α) : errorOf x = [] ↔ ∃ a, x = .ok a := by
  cases x <;> simp [errorOf]

/-- Delete File fails with the error of one of its inputs (R93, N27). -/
theorem encodeDeleteFile_error {P : HostParams} {d : CommandDefinition} {v : FieldValues} {e : AssembleError}
    (h : encodeDeleteFile P d v = .error e) :
    hexField v "Directory Flag".toList 1 = .error e ∨ textField v "File/Directory Name".toList = .error e := by
  simp only [encodeDeleteFile] at h
  simp only [← mem_errorOf, ← List.mem_append]
  split at h
  · cases h
  · next hfails =>
    cases h
    refine reportOne_mem P d v _ fun hnil => ?_
    simp only [List.append_eq_nil_iff, errorOf_eq_nil] at hnil
    obtain ⟨⟨f, hflag⟩, n, hname⟩ := hnil
    exact hfails f n hflag hname

/-- List Files fails with the error of its input (R94). -/
theorem encodeListFiles_error {v : FieldValues} {e : AssembleError} (h : encodeListFiles v = .error e) :
    textField v "Directory Path".toList = .error e := by
  unfold encodeListFiles at h
  split at h
  · cases h
  · next hpath =>
    cases h
    exact hpath

/-- Unzip File fails with the error of one of its inputs (R95, N27). -/
theorem encodeUnzipFile_error {P : HostParams} {d : CommandDefinition} {v : FieldValues} {e : AssembleError}
    (h : encodeUnzipFile P d v = .error e) :
    textField v "ZipFile Name".toList = .error e ∨ textField v "Destination Directory Path".toList = .error e := by
  simp only [encodeUnzipFile] at h
  simp only [← mem_errorOf, ← List.mem_append]
  split at h
  · cases h
  · next hfails =>
    cases h
    refine reportOne_mem P d v _ fun hnil => ?_
    simp only [List.append_eq_nil_iff, errorOf_eq_nil] at hnil
    obtain ⟨⟨z, hzip⟩, x, hdest⟩ := hnil
    exact hfails z x hzip hdest

/-- The chunk count fails only where its input is required (R96). -/
theorem chunkCount_error {P : HostParams} {v : FieldValues} {flag : Except AssembleError Nat} {e : AssembleError}
    (h : chunkCount P v flag = .error e) :
    flag ≠ .ok 255 ∧ intField P v "Number of Chunks to Transfer".toList 2 = .error e := by
  unfold chunkCount at h
  split at h
  · cases h
  · next hflag => exact ⟨hflag, h⟩

/-- Request File fails with the error of one of its inputs, the chunk count as its flag asks for it (R96, N27). -/
theorem encodeRequestFile_error {P : HostParams} {d : CommandDefinition} {v : FieldValues} {e : AssembleError}
    (h : encodeRequestFile P d v = .error e) :
    intField P v "Transfer ID".toList 2 = .error e ∨ intField P v "Transfer Flag".toList 1 = .error e ∨
      intField P v "Chunk Index".toList 2 = .error e ∨
      chunkCount P v (intField P v "Transfer Flag".toList 1) = .error e := by
  simp only [encodeRequestFile] at h
  simp only [← mem_errorOf, ← List.mem_append, ← List.append_assoc]
  split at h
  · cases h
  · next hfails =>
    cases h
    refine reportOne_mem P d v _ fun hnil => ?_
    simp only [List.append_eq_nil_iff, errorOf_eq_nil] at hnil
    obtain ⟨⟨⟨⟨i, hid⟩, f, hflag⟩, x, hindex⟩, k, hchunks⟩ := hnil
    exact hfails i f x k hid hflag hindex hchunks

/-- Only the four names with an encoder of their own can fail, and each fails as its encoder does (R92, R97). -/
theorem encodeFields_error {P : HostParams} {d : CommandDefinition} {v : FieldValues} {e : AssembleError}
    (h : encodeFields P d v = .error e) :
    (d.name = "Delete File".toList ∧ encodeDeleteFile P d v = .error e) ∨
      (d.name = "List Files".toList ∧ encodeListFiles v = .error e) ∨
      (d.name = "Unzip File".toList ∧ encodeUnzipFile P d v = .error e) ∨
      (d.name = "Request File".toList ∧ encodeRequestFile P d v = .error e) := by
  by_cases hname : d.name ∈ ["Delete File".toList, "List Files".toList, "Unzip File".toList, "Request File".toList]
  · simp only [List.mem_cons, List.not_mem_nil, or_false] at hname
    rcases hname with hdelete | hlist | hunzip | hrequest
    · exact .inl ⟨hdelete, (encodeFields_deleteFile P d v hdelete).symm.trans h⟩
    · exact .inr (.inl ⟨hlist, (encodeFields_listFiles P d v hlist).symm.trans h⟩)
    · exact .inr (.inr (.inl ⟨hunzip, (encodeFields_unzipFile P d v hunzip).symm.trans h⟩))
    · exact .inr (.inr (.inr ⟨hrequest, (encodeFields_requestFile P d v hrequest).symm.trans h⟩))
  · rw [encodeFields_default P v hname] at h
    cases h

/-- Settles O57: each reader's errors by its branches, and each encoder's error is that of one of its readers. -/
theorem fieldErrorsNameTheFieldAndFormat : Obligations.FieldErrorsNameTheFieldAndFormat := by
  unfold Obligations.FieldErrorsNameTheFieldAndFormat
  refine ⟨fun P v name t bytes => ⟨fields_missing P bytes, hexField_invalid v name t bytes, intField_invalid bytes, rfl, rfl,
    fun f => ⟨rfl, rfl, rfl⟩⟩, fun P c v e h => ?_⟩
  rcases encodeFields_error h with ⟨hname, h⟩ | ⟨hname, h⟩ | ⟨hname, h⟩ | ⟨hname, h⟩
  · exact .inl ⟨hname, encodeDeleteFile_error h⟩
  · exact .inr (.inl ⟨hname, encodeListFiles_error h⟩)
  · exact .inr (.inr (.inl ⟨hname, encodeUnzipFile_error h⟩))
  · exact .inr (.inr (.inr ⟨hname, (encodeRequestFile_error h).imp_right (.imp_right (.imp_right chunkCount_error))⟩))

end Sys2Proof.Machine
end

section
/-! SUPPORT. The refinement between the host's side and the block (spec/40_host_software.md R100, R101): the host's commands for a
request make the block emit, or refuse with, what `assemble` returns. -/

namespace Sys2Proof.Machine

/-! ## The commands of a packet -/

/-- Outside a frame `PKTSTART` on operands in range is executed (R140). -/
theorem afterCommand_pktstart_of_closed {s : State} (hr : s.remaining = 0#16) {code n : Word} (hcode : code.toNat ≤ 255)
    (hn : n ≠ 0xFFFF#16) : afterCommand (.pktstart code n) s = commandEffect (.pktstart code n) s := by
  rw [afterCommand, (commandError_pktstart_eq_none code n s).2 ⟨hr, hcode, hn⟩]

/-- Inside a frame `PKTDATA` is executed (R141). -/
theorem afterCommand_pktdata_of_open {s : State} (h : s.remaining ≠ 0#16) (x : Byte) :
    afterCommand (.pktdata x) s = commandEffect (.pktdata x) s := by
  rw [afterCommand, (commandError_pktdata_eq_none x s).2 h]

/-- The state after `n` commands answered `OK` with data 0 that left the block closed, `crc` at `k` and `bytes` emitted. -/
def closedAfter (n : Nat) (k : Word) (bytes : List Byte) (s : State) : State :=
  { s with crc := k, remaining := 0#16, txStream := s.txStream ++ bytes, txQueue := s.txQueue ++ bytes,
           rspStream := s.rspStream ++ List.replicate n ⟨.ok, 0#48⟩, rspQueue := s.rspQueue ++ List.replicate n ⟨.ok, 0#48⟩ }

@[simp] theorem closedAfter_remaining (n : Nat) (k : Word) (bytes : List Byte) (s : State) :
    (closedAfter n k bytes s).remaining = 0#16 := rfl
@[simp] theorem closedAfter_txStream (n : Nat) (k : Word) (bytes : List Byte) (s : State) :
    (closedAfter n k bytes s).txStream = s.txStream ++ bytes := rfl
@[simp] theorem closedAfter_rspStream (n : Nat) (k : Word) (bytes : List Byte) (s : State) :
    (closedAfter n k bytes s).rspStream = s.rspStream ++ List.replicate n ⟨.ok, 0#48⟩ := rfl

/-- The data bytes an open frame still owes close it: they are emitted, fed to `crc`, and followed by its trailer (R141). -/
theorem execAll_pktdata_append (x : Byte) (bytes : List Byte) (is : List Instr) {s : State}
    (h : s.remaining.toNat = bytes.length + 1) :
    execAll ((x :: bytes).map .pktdata ++ is) s =
      execAll is (closedAfter (bytes.length + 1) (crcBytes s.crc (x :: bytes))
        (x :: bytes ++ trailerBytes (crcBytes s.crc (x :: bytes))) s) := by
  induction bytes generalizing x s with
  | nil =>
    have hone : s.remaining = 1#16 := BitVec.eq_of_toNat_eq h
    rw [List.map_cons, List.cons_append, execAll_cons, afterCommand_pktdata_of_open (by simp [hone])]
    simp [commandEffect, closedAfter, respond, setRemaining, setCrc, emit, hone]
  | cons y bytes ih =>
    rw [List.length_cons] at h
    have hopen : s.remaining ≠ 0#16 := by bv_omega
    have hmore : (s.remaining == 1#16) = false := by rw [beq_eq_false_iff_ne]; bv_omega
    have hleft : (commandEffect (.pktdata x) s).remaining.toNat = bytes.length + 1 := by
      simp only [commandEffect, respond_remaining, setRemaining_remaining]
      bv_omega
    rw [List.map_cons, List.cons_append, execAll_cons, afterCommand_pktdata_of_open hopen, ih y hleft]
    simp [commandEffect, closedAfter, respond, setRemaining, setCrc, emit, hmore, List.replicate_succ]

/-- The checksum fold over two parts (R122). -/
theorem crcBytes_append (r : Word) (x y : List Byte) : crcBytes r (x ++ y) = crcBytes (crcBytes r x) y := by
  rw [crcBytes, crcBytes, crcBytes, List.foldl_append]

/-- From a closed state the commands of `PACKET` emit exactly its packet, and the commands after them go on from there (R82, R144). -/
theorem execAll_packetMacro_append {code : Word} {d : List Byte} (hcode : code.toNat ≤ 255) (hd : d.length ≤ 65534)
    (is : List Instr) {s : State} (hr : s.remaining = 0#16) :
    execAll (packetMacro code d ++ is) s =
      execAll is (closedAfter (d.length + 1) (checksum (packetBody code d)) (packetBytes code d) s) := by
  have hn : BitVec.ofNat 16 d.length ≠ 0xFFFF#16 := by bv_omega
  rw [packetMacro, List.cons_append, execAll_cons, afterCommand_pktstart_of_closed hr hcode hn]
  cases d with
  | nil => simp [commandEffect, closedAfter, respond, setRemaining, setCrc, emit, packetBytes, packetBody, checksum]
  | cons x d =>
    rw [List.length_cons] at hd
    have hnonempty : (BitVec.ofNat 16 (d.length + 1) == 0#16) = false := by rw [beq_eq_false_iff_ne]; bv_omega
    rw [execAll_pktdata_append]
    · simp [commandEffect, closedAfter, respond, setRemaining, setCrc, emit, packetBytes, packetBody, checksum,
        crcBytes_append, hnonempty, List.replicate_succ]
    · simp only [commandEffect, respond_remaining, setRemaining_remaining, List.length_cons]
      bv_omega

theorem execAll_packetMacro {code : Word} {d : List Byte} (hcode : code.toNat ≤ 255) (hd : d.length ≤ 65534) {s : State}
    (hr : s.remaining = 0#16) :
    execAll (packetMacro code d) s =
      .next (closedAfter (d.length + 1) (checksum (packetBody code d)) (packetBytes code d) s) := by
  rw [← List.append_nil (packetMacro code d), execAll_packetMacro_append hcode hd [] hr, execAll_nil]

/-- Commands end in a next state, whatever they are, and it continues the response stream (R13, R24). -/
theorem execAll_extends_rspStream (is : List Instr) (s : State) :
    ∃ t rs, execAll is s = .next t ∧ t.rspStream = s.rspStream ++ rs := by
  induction is generalizing s with
  | nil => exact ⟨s, [], rfl, (List.append_nil _).symm⟩
  | cons i is ih =>
    obtain ⟨r, bytes, -, hans⟩ := afterCommand_answers i s
    obtain ⟨t, rs, ht, hrs⟩ := ih (afterCommand i s)
    exact ⟨t, r :: rs, (execAll_cons i is s).trans ht, by rw [hrs, hans.rspStream, List.append_assoc]; rfl⟩

/-- A length operand of 65535 is refused outside a frame (R140, R171). -/
theorem afterCommand_pktstart_of_overflow {s : State} (hr : s.remaining = 0#16) {code : Word} (hcode : code.toNat ≤ 255) :
    afterCommand (.pktstart code 0xFFFF#16) s = respond .lengthOverflow 0#48 s := by
  have hclosed : inFrame s = false := (inFrame_eq_false s).2 hr
  have hlong : lengthTooBig 0xFFFF#16 = true := by decide
  simp [afterCommand, commandError, allowedIn, hclosed, (codeTooBig_eq_false code).2 hcode, hlong]

/-! ## What `assemble` returns, and what the host gets back -/

/-- The code of a data field is one of the catalog's, so it fits a byte (R90). -/
theorem code_in_range_of_handedData {P : HostParams} {code : Int} {v : FieldValues} {data : List Byte}
    (h : handedData P code v = .ok data) : ¬ (code < 0 ∨ (Config.codeMax : Int) < code) := by
  obtain ⟨hdata, -⟩ := (handedData_eq_ok P code v data).1 h
  cases hlookup : lookupCommand P.catalog code with
  | none =>
    rw [dataField_of_lookup_none hlookup] at hdata
    cases hdata
  | some d =>
    have hcode : (d.code.toNat : Int) = code := by simpa using List.find?_some hlookup
    have := d.code.isLt
    simp only [Config.codeMax]
    omega

theorem codeOperand_le_of_handedData {P : HostParams} {code : Int} {v : FieldValues} {data : List Byte}
    (h : handedData P code v = .ok data) : (BitVec.ofNat 16 code.toNat).toNat ≤ 255 := by
  have hcode := code_in_range_of_handedData h
  simp only [Config.codeMax] at hcode
  rw [BitVec.toNat_ofNat]
  omega

theorem hostCommands_of_handedData {P : HostParams} {code : Int} {v : FieldValues} {data : List Byte}
    (h : handedData P code v = .ok data) : hostCommands P code v = .ok (packetMacro (BitVec.ofNat 16 code.toNat) data) := by
  rw [hostCommands, h]

/-- A data field that the length word can express is framed as a packet (R100, R112). -/
theorem assemble_of_short {P : HostParams} {code : Int} {v : FieldValues} {data : List Byte}
    (h : handedData P code v = .ok data) (hlen : data.length ≤ 65534) :
    assemble P code v = .ok (packetBytes (BitVec.ofNat 16 code.toNat) data) := by
  have hmax : ¬ Config.maxDataLen < data.length := Nat.not_lt.2 hlen
  simp only [assemble, h, buildHeader, if_neg (code_in_range_of_handedData h), if_neg hmax, packetBytes]

/-- A longer data field gives the header's `LengthOverflow` (R101, R171). -/
theorem assemble_of_long {P : HostParams} {code : Int} {v : FieldValues} {data : List Byte}
    (h : handedData P code v = .ok data) (hlen : 65534 < data.length) : assemble P code v = .error .lengthOverflow := by
  have hmax : Config.maxDataLen < data.length := hlen
  simp only [assemble, h, buildHeader, if_neg (code_in_range_of_handedData h), if_pos hmax]

/-- `assemble` returns bytes only where a data field was handed on that the length word can express, and they are its packet. -/
theorem exists_handedData_of_assemble_ok {P : HostParams} {code : Int} {v : FieldValues} {bytes : List Byte}
    (h : assemble P code v = .ok bytes) :
    ∃ data, handedData P code v = .ok data ∧ data.length ≤ 65534 ∧ bytes = packetBytes (BitVec.ofNat 16 code.toNat) data := by
  cases hdata : handedData P code v with
  | error e =>
    rw [(no_packet_of_handedData_error hdata).1] at h
    cases h
  | ok data =>
    by_cases hlen : data.length ≤ 65534
    · rw [assemble_of_short hdata hlen] at h
      cases h
      exact ⟨data, rfl, hlen, rfl⟩
    · rw [assemble_of_long hdata (Nat.lt_of_not_le hlen)] at h
      cases h

/-- Settles O55: the bytes are the packet of the data field handed on, and the host's commands emit that packet. -/
theorem blockSendsWhatAssembleReturns : Obligations.BlockSendsWhatAssembleReturns := by
  unfold Obligations.BlockSendsWhatAssembleReturns
  intro P code v bytes s hbytes hr
  obtain ⟨data, hdata, hlen, rfl⟩ := exists_handedData_of_assemble_ok hbytes
  exact ⟨_, _, _, hostCommands_of_handedData hdata, execAll_packetMacro (codeOperand_le_of_handedData hdata) hlen hr, rfl, rfl, rfl,
    fun r hrs => List.eq_of_mem_replicate hrs⟩

/-- With no error among the responses the host gets the bytes emitted (R100). -/
theorem hostResult_closedAfter (n : Nat) (k : Word) (bytes : List Byte) (s : State) :
    hostResult s (closedAfter n k bytes s) = .ok bytes := by
  have hok : ((closedAfter n k bytes s).rspStream.drop s.rspStream.length).findSome? (fun r => blockError r.status) = none := by
    simp [blockError]
  rw [hostResult, hok]
  simp

/-- An error of the first response is what the host gets (R100, R105). -/
theorem hostResult_of_first_error {s t : State} {r : Response} {rs : List Response} (ht : t.rspStream = s.rspStream ++ r :: rs)
    {e : AssembleError} (he : blockError r.status = some e) : hostResult s t = .error e := by
  rw [hostResult, ht, List.drop_left, findSome_blockError_cons, he]

/-- A data field of 65535 bytes: the block refuses `PKTSTART`, and that is what the host gets, whatever follows (R101, R171). -/
theorem hostResult_of_overflow {code : Word} {d : List Byte} (hcode : code.toNat ≤ 255) (hd : d.length = 65535) {s : State}
    (hr : s.remaining = 0#16) :
    ∃ t, execAll (packetMacro code d) s = .next t ∧ hostResult s t = .error .lengthOverflow := by
  obtain ⟨t, rs, ht, hrs⟩ := execAll_extends_rspStream (d.map .pktdata) (respond .lengthOverflow 0#48 s)
  refine ⟨t, ?_, hostResult_of_first_error (r := ⟨.lengthOverflow, 0#48⟩) (rs := rs) ?_ rfl⟩
  · rw [packetMacro, hd, execAll_cons, afterCommand_pktstart_of_overflow hr hcode, ht]
  · rw [hrs, respond_rspStream, List.append_assoc]
    rfl

/-- Settles O59: the block frames a data field that the length word can express and refuses the one of 65535 bytes, as `assemble`
does. -/
theorem hostResultIsAssemblesResult : Obligations.HostResultIsAssemblesResult := by
  unfold Obligations.HostResultIsAssemblesResult
  intro P code v s hr
  refine ⟨fun e => no_packet_of_handedData_error, fun data hdata => ?_⟩
  have hcode := codeOperand_le_of_handedData hdata
  obtain ⟨-, hlen⟩ := (handedData_eq_ok P code v data).1 hdata
  by_cases hshort : data.length ≤ 65534
  · refine ⟨_, _, hostCommands_of_handedData hdata, execAll_packetMacro hcode hshort hr, ?_⟩
    rw [hostResult_closedAfter, assemble_of_short hdata hshort]
  · obtain ⟨t, ht, hresult⟩ := hostResult_of_overflow hcode (d := data) (by omega) hr
    refine ⟨_, t, hostCommands_of_handedData hdata, ht, ?_⟩
    rw [hresult, assemble_of_long hdata (Nat.lt_of_not_le hshort)]

end Sys2Proof.Machine
end

section
/-! SUPPORT. The statements about the header (spec/41_header.md): what `HDRBLD` answers to any operands, and that its arithmetic
loses nothing. -/

namespace Sys2Proof.Machine

/-! ## What `HDRBLD` answers -/

/-- On operands in range `HDRBLD` is executed, frame open or not (R110). -/
theorem afterCommand_hdrbld_of_legal {code len : Word} (hc : code.toNat ≤ 255) (hl : len.toNat ≤ 65534) (s : State) :
    afterCommand (.hdrbld code len) s = respond .ok (hdr48 code len) s := by
  have hcode : codeTooBig code = false := (codeTooBig_eq_false code).2 hc
  have hlen : lengthTooBig len = false := (lengthTooBig_eq_false len).2 (by bv_omega)
  simp [afterCommand, commandError, commandEffect, allowedIn, hcode, hlen]

/-- A length operand of 65535 after a legal code is refused (R110, R171). -/
theorem afterCommand_hdrbld_of_overflow {code : Word} (hc : code.toNat ≤ 255) (s : State) :
    afterCommand (.hdrbld code 0xFFFF#16) s = respond .lengthOverflow 0#48 s := by
  have hcode : codeTooBig code = false := (codeTooBig_eq_false code).2 hc
  have hlong : lengthTooBig 0xFFFF#16 = true := by decide
  simp [afterCommand, commandError, allowedIn, hcode, hlong]

theorem hdr48_of_legal {code len : Word} (hc : code.toNat ≤ 255) (hl : len.toNat ≤ 65534) :
    hdr48 code len = BitVec.ofNat 48 ((0x2000 + code.toNat) * 2 ^ 32 + 0xC000 * 2 ^ 16 + (len.toNat + 1)) := by
  rw [← hdr48_toNat_of_legal hc hl, BitVec.ofNat_toNat, BitVec.setWidth_eq]

/-- Settles O19: the two errors in their order, else the header value as a number. -/
theorem hdrbldBuildsTheHeader : Obligations.HdrbldBuildsTheHeader := by
  unfold Obligations.HdrbldBuildsTheHeader
  refine ⟨fun code len => decode_encode (.hdrbld code len), fun s code len => ⟨?_, ?_, ?_⟩⟩
  · intro hc hl d
    have hd : hdr48 code len = d := hdr48_of_legal hc hl
    rw [exec_eq_next, afterCommand_hdrbld_of_legal hc hl, hd, respond]
  · intro hc
    have hcode : codeTooBig code = true := decide_eq_true hc
    rw [exec_eq_next, afterCommand_hdrbld_of_codeTooBig hcode, respond]
  · rintro hc rfl
    rw [exec_eq_next, afterCommand_hdrbld_of_overflow hc, respond]

/-! ## The arithmetic of the header -/

/-- In 17 bits the biased length does not wrap (R111). -/
theorem lengthSum_toNat (len : Word) : (len.setWidth 17 + 1#17).toNat = len.toNat + 1 := by
  have hlen := len.isLt
  rw [BitVec.toNat_add, BitVec.toNat_setWidth, BitVec.toNat_ofNat]
  omega

/-- The bias of R68 carries into bit 16 exactly when `LengthOverflow` applies (R111, R171). -/
theorem lengthTooBig_iff_lengthSum_msb (len : Word) : lengthTooBig len = true ↔ (len.setWidth 17 + 1#17).msb = true := by
  have hmax : Config.maxDataLen = 65534 := rfl
  rw [lengthTooBig, hmax, decide_eq_true_iff, BitVec.msb_eq_decide, decide_eq_true_iff, lengthSum_toNat]
  omega

/-- The length word is the low half of the 17-bit sum (R68, R111). -/
theorem headerLengthWord_eq_lengthSum (len : Word) : headerLengthWord len = (len.setWidth 17 + 1#17).setWidth 16 := by
  rw [← BitVec.ofNat_toNat, lengthSum_toNat, headerLengthWord, Config.lenBias]

/-- Bits 39 to 32 of the header are the code (R111). -/
theorem hdr48_code {code len : Word} (hc : code.toNat ≤ 255) (hl : len.toNat ≤ 65534) :
    ((hdr48 code len).extractLsb' 32 8).toNat = code.toNat := by
  rw [BitVec.extractLsb'_toNat, Nat.shiftRight_eq_div_pow, hdr48_toNat_of_legal hc hl]
  omega

/-- Bits 15 to 0 of the header are the biased length (R111). -/
theorem hdr48_length {code len : Word} (hc : code.toNat ≤ 255) (hl : len.toNat ≤ 65534) :
    ((hdr48 code len).extractLsb' 0 16).toNat = len.toNat + 1 := by
  rw [BitVec.extractLsb'_toNat, Nat.shiftRight_eq_div_pow, hdr48_toNat_of_legal hc hl]
  omega

/-- Settles O40: the command word, the length sum, and the two operands read back from the header. -/
theorem headerArithmeticNeverWraps : Obligations.HeaderArithmeticNeverWraps := by
  unfold Obligations.HeaderArithmeticNeverWraps
  refine ⟨fun code => headerCommandWord_toNat, fun len => ⟨lengthTooBig_iff_lengthSum_msb len, fun _ => ?_⟩,
    fun code len hc hl => ⟨(hdr48_code hc hl).symm, ?_⟩⟩
  · exact headerLengthWord_eq_lengthSum len
  · rw [hdr48_length hc hl, Nat.add_sub_cancel]

end Sys2Proof.Machine
end

section
/-! SUPPORT. The statements about the checksum (spec/42_crc.md): one bit and one byte of `crc`, the equal forms of R121, R128 and
R129, the laws of R130, the residue of R131, and the three commands of the family. -/

namespace Sys2Proof.Machine

/-! ## One bit -/

/-- The feedback bit XORs the polynomial into the shifted register (R120). -/
theorem crcBit_eq_xor (r : Word) (d : Bool) :
    crcBit r d = r <<< 1 ^^^ (if r.msb ^^ d then Config.crcPoly else 0#16) := by
  unfold crcBit
  split <;> simp

theorem getLsbD_crcPoly {i : Nat} (h : i < 16) : Config.crcPoly.getLsbD i = decide (i = 0 ∨ i = 5 ∨ i = 12) := by
  revert i
  decide

/-- The register as sixteen flip-flops (R120). -/
theorem getLsbD_crcBit (r : Word) (d : Bool) {i : Nat} (h : i < 16) :
    (crcBit r d).getLsbD i =
      if i = 0 then r.getLsbD 15 ^^ d
      else if i = 5 ∨ i = 12 then r.getLsbD (i - 1) ^^ (r.getLsbD 15 ^^ d) else r.getLsbD (i - 1) := by
  have hfb : (if r.getLsbD 15 ^^ d then Config.crcPoly else 0#16).getLsbD i =
      ((r.getLsbD 15 ^^ d) && decide (i = 0 ∨ i = 5 ∨ i = 12)) := by
    cases r.getLsbD 15 ^^ d <;> simp [getLsbD_crcPoly h]
  rw [crcBit_eq_xor, BitVec.msb_eq_getLsbD_last, BitVec.getLsbD_xor, hfb, BitVec.getLsbD_shiftLeft]
  split_ifs <;> simp_all

/-- Settles O30: the shift is doubling modulo 2^16, and each flip-flop has its input. -/
theorem crcBitIsTheShiftRegister : Obligations.CrcBitIsTheShiftRegister := by
  unfold Obligations.CrcBitIsTheShiftRegister
  intro r d
  have hdouble : r <<< 1 = BitVec.ofNat 16 (2 * r.toNat) := by bv_omega
  refine ⟨?_, fun i hi => getLsbD_crcBit r d hi⟩
  rw [← hdouble]
  rfl

/-- `crc_bit` is linear over XOR (R130 (b)). -/
theorem crcBit_xor (r q : Word) (d e : Bool) : crcBit (r ^^^ q) (d ^^ e) = crcBit r d ^^^ crcBit q e := by
  ext i hi
  simp only [← BitVec.getLsbD_eq_getElem, BitVec.getLsbD_xor, getLsbD_crcBit _ _ hi]
  split_ifs <;> simp only [Bool.xor_assoc, Bool.xor_left_comm]

/-- `crc_bit` loses nothing: the bit shifted out is read back from bit 0 (R130 (c)). -/
theorem crcBit_injective (d : Bool) : Function.Injective fun r : Word => crcBit r d := by
  intro r q h
  have hbit (i : Nat) : (crcBit r d).getLsbD i = (crcBit q d).getLsbD i := congrArg (·.getLsbD i) h
  have hlast : r.getLsbD 15 = q.getLsbD 15 := by
    have := hbit 0
    rw [getLsbD_crcBit r d (by decide), getLsbD_crcBit q d (by decide)] at this
    simpa only [if_true, Bool.xor_left_inj] using this
  have hrest {i : Nat} (hi : i + 1 < 16) : r.getLsbD i = q.getLsbD i := by
    have := hbit (i + 1)
    rw [getLsbD_crcBit r d hi, getLsbD_crcBit q d hi, hlast] at this
    split_ifs at this <;> simp_all
  apply BitVec.eq_of_getLsbD_eq
  intro i hi
  obtain rfl | hlt := Nat.eq_or_lt_of_le (Nat.le_of_lt_succ hi)
  · exact hlast
  · exact hrest (Nat.succ_lt_succ hlt)

/-! ## The software form -/

/-- A round of the software form shifts in a 0 (R121). -/
theorem shiftRound_eq (t : Word) : shiftRound t = crcBit t false := by
  rw [shiftRound, crcBit, Bool.xor_false]

/-- A byte in the register's high half (R121). -/
def highHalf (x : Byte) : Word := x.setWidth 16 <<< 8

theorem getLsbD_highHalf (x : Byte) (i : Nat) :
    (highHalf x).getLsbD i = (decide (8 ≤ i) && x.getLsbD (i - 8)) := by
  have hx : 8 ≤ i - 8 → x.getLsbD (i - 8) = false := BitVec.getLsbD_of_ge x _
  simp only [highHalf, BitVec.getLsbD_shiftLeft, BitVec.getLsbD_setWidth]
  grind

theorem highHalf_zero : highHalf 0#8 = 0#16 := rfl

theorem highHalf_xor (x y : Byte) : highHalf (x ^^^ y) = highHalf x ^^^ highHalf y := by
  rw [highHalf, BitVec.setWidth_xor, BitVec.shiftLeft_xor_distrib]; rfl

theorem highHalf_injective : Function.Injective highHalf := by
  intro x y h
  apply BitVec.eq_of_getLsbD_eq
  intro i hi
  have := congrArg (·.getLsbD (i + 8)) h
  simpa only [getLsbD_highHalf, Nat.le_add_left, Nat.add_sub_cancel, decide_true, Bool.true_and] using this

/-- With the message bit equal to bit 15 there is no feedback, only the shift (R120). -/
theorem crcBit_highHalf_msb (x : Byte) : crcBit (highHalf x) x.msb = highHalf (x <<< 1) := by
  have hmsb : (highHalf x).msb = x.msb := by
    rw [BitVec.msb_eq_getLsbD_last, getLsbD_highHalf, BitVec.msb_eq_getLsbD_last]; rfl
  rw [crcBit, hmsb, Bool.xor_self, if_neg Bool.false_ne_true]
  apply BitVec.eq_of_getLsbD_eq
  intro i hi
  simp only [BitVec.getLsbD_shiftLeft, getLsbD_highHalf]
  grind

/-- A round on a byte XORed into the high half shifts in the byte's first bit, and leaves the others in the high half (R121). -/
theorem shiftRound_xor_highHalf (r : Word) (x : Byte) :
    shiftRound (r ^^^ highHalf x) = crcBit r x.msb ^^^ highHalf (x <<< 1) := by
  rw [← crcBit_highHalf_msb, ← crcBit_xor, Bool.xor_self, shiftRound_eq]

/-- `n` rounds shift in the byte's first `n` bits (R121). -/
theorem repeat_shiftRound_xor_highHalf {n : Nat} (hn : n ≤ 8) (r : Word) (x : Byte) :
    Nat.repeat shiftRound n (r ^^^ highHalf x) =
      ((List.range n).map fun i => x.getLsbD (7 - i)).foldl crcBit r ^^^ highHalf (x <<< n) := by
  induction n with
  | zero => simp [Nat.repeat]
  | succ n ih =>
    have hmsb : (x <<< n).msb = x.getLsbD (7 - n) := by
      rw [BitVec.msb_eq_getLsbD_last, BitVec.getLsbD_shiftLeft]
      grind
    rw [Nat.repeat, ih (by omega), shiftRound_xor_highHalf, hmsb, BitVec.shiftLeft_add, List.range_succ, List.map_append,
      List.foldl_append]
    rfl

/-- `crc_byte` by the usual software form (R121). -/
theorem crcByte_eq_crcByteShift (r : Word) (x : Byte) : crcByte r x = crcByteShift r x := by
  have h := repeat_shiftRound_xor_highHalf (le_refl 8) r x
  rw [BitVec.shiftLeft_eq_zero (le_refl 8), highHalf_zero, BitVec.xor_zero] at h
  exact h.symm

/-- Settles O31: the bits most significant first by definition, the software form by eight rounds, the worked steps by
evaluation. -/
theorem crcByteEqualsTheSoftwareForm : Obligations.CrcByteEqualsTheSoftwareForm := by
  unfold Obligations.CrcByteEqualsTheSoftwareForm
  exact ⟨fun r x => ⟨rfl, crcByte_eq_crcByteShift r x⟩, by decide⟩

/-! ## The sixteen equations -/

/-- Settles O32, output by output: the eight feedback bits traced through the flip-flops, and the XORs reordered. -/
theorem crcByteEqualsTheEquations : Obligations.CrcByteEqualsTheEquations := by
  unfold Obligations.CrcByteEqualsTheEquations
  intro r x
  apply BitVec.eq_of_getLsbD_eq
  intro i hi
  rw [crcByteEquations, BitVec.getLsbD_ofBoolListBE]
  interval_cases i <;>
    simp +decide only [crcByte, getLsbD_crcBit, if_true, if_false, List.length_cons, List.length_nil, List.getD_cons_zero,
      List.getD_cons_succ, Nat.reduceAdd, Nat.reduceSub, decide_true, Bool.true_and] <;>
    simp only [Bool.xor_assoc, Bool.xor_left_comm, Bool.xor_comm]

/-! ## Linearity -/

/-- `crc_byte` is linear over XOR (R130 (b)). -/
theorem crcByte_xor (r q : Word) (x y : Byte) : crcByte (r ^^^ q) (x ^^^ y) = crcByte r x ^^^ crcByte q y := by
  simp only [crcByte, BitVec.getLsbD_xor, crcBit_xor]

theorem crcByte_zero : crcByte 0#16 0#8 = 0#16 := by decide

/-- Settles O34: the fold over two parts, and the linearity of every bit. -/
theorem crcStreamsAndIsLinear : Obligations.CrcStreamsAndIsLinear :=
  ⟨crcBytes_append, crcByte_xor, crcByte_zero⟩

/-- The register and the byte enter `crc_byte` only by the byte XORed into the register's high half (R121). -/
theorem crcByte_eq_crcByte_highHalf (r : Word) (x : Byte) : crcByte r x = crcByte (r ^^^ highHalf x) 0#8 := by
  rw [crcByte_eq_crcByteShift, crcByte_eq_crcByteShift (r ^^^ _), crcByteShift, crcByteShift, ← highHalf, ← highHalf,
    highHalf_zero, BitVec.xor_zero]

/-! ## Nothing is lost -/

/-- A run of message bits loses nothing of the register (R130 (c)). -/
theorem foldl_crcBit_injective (bits : List Bool) : Function.Injective fun r : Word => bits.foldl crcBit r := by
  induction bits with
  | nil => exact Function.injective_id
  | cons d bits ih => exact ih.comp (crcBit_injective d)

theorem crcByte_register_injective (x : Byte) : Function.Injective fun r : Word => crcByte r x :=
  foldl_crcBit_injective (messageBits false x)

theorem crcByte_byte_injective (r : Word) : Function.Injective fun x : Byte => crcByte r x := by
  intro x y (h : crcByte r x = crcByte r y)
  rw [crcByte_eq_crcByte_highHalf r x, crcByte_eq_crcByte_highHalf r y] at h
  exact highHalf_injective ((BitVec.xor_right_inj r).1 (crcByte_register_injective 0#8 h))

/-- Settles O35: an injection of the finite set of register values into itself is a bijection. -/
theorem crcByteLosesNothing : Obligations.CrcByteLosesNothing :=
  ⟨fun x => Finite.injective_iff_bijective.1 (crcByte_register_injective x), crcByte_byte_injective, rfl⟩

/-! ## The table -/

/-- The low half of the register is only shifted: within eight rounds none of its bits is fed back (R129). -/
theorem repeat_shiftRound_lowHalf {n : Nat} (hn : n ≤ 8) (x : Byte) :
    Nat.repeat shiftRound n (x.setWidth 16) = x.setWidth 16 <<< n := by
  induction n with
  | zero => simp [Nat.repeat]
  | succ n ih =>
    have hmsb : (x.setWidth 16 <<< n).msb = false := by
      rw [BitVec.msb_eq_getLsbD_last, BitVec.getLsbD_shiftLeft, BitVec.getLsbD_setWidth, BitVec.getLsbD_of_ge x _ (by omega)]
      simp
    rw [Nat.repeat, ih (by omega), shiftRound, hmsb, if_neg Bool.false_ne_true, BitVec.shiftLeft_add]

theorem crcByte_lowHalf (x : Byte) : crcByte (x.setWidth 16) 0#8 = highHalf x := by
  rw [crcByte_eq_crcByteShift, crcByteShift, ← highHalf, highHalf_zero, BitVec.xor_zero]
  exact repeat_shiftRound_lowHalf (le_refl 8) x

/-- The two bytes of the register. -/
theorem lowHalf_xor_highHalf (r : Word) : (r.extractLsb' 0 8).setWidth 16 ^^^ highHalf (r.extractLsb' 8 8) = r := by
  apply BitVec.eq_of_getLsbD_eq
  intro i hi
  simp only [BitVec.getLsbD_xor, BitVec.getLsbD_setWidth, BitVec.getLsbD_extractLsb', getLsbD_highHalf]
  grind

theorem highHalf_lowByte (r : Word) : highHalf (r.extractLsb' 0 8) = r <<< 8 := by
  apply BitVec.eq_of_getLsbD_eq
  intro i hi
  simp only [BitVec.getLsbD_shiftLeft, BitVec.getLsbD_extractLsb', getLsbD_highHalf]
  grind

/-- `crc_byte` from the low half, which is shifted, and the high half, which meets the byte (R129). -/
theorem crcByte_eq_shift_xor (r : Word) (x : Byte) :
    crcByte r x = r <<< 8 ^^^ crcByte 0#16 (r.extractLsb' 8 8 ^^^ x) := by
  calc crcByte r x
      = crcByte (((r.extractLsb' 0 8).setWidth 16 ^^^ highHalf (r.extractLsb' 8 8)) ^^^ 0#16) (0#8 ^^^ x) := by
        rw [lowHalf_xor_highHalf, BitVec.xor_zero, BitVec.zero_xor]
    _ = crcByte ((r.extractLsb' 0 8).setWidth 16) 0#8 ^^^ crcByte (highHalf (r.extractLsb' 8 8)) x := by
        rw [BitVec.xor_zero, crcByte_xor]
    _ = r <<< 8 ^^^ crcByte 0#16 (r.extractLsb' 8 8 ^^^ x) := by
        rw [crcByte_lowHalf, highHalf_lowByte, crcByte_eq_crcByte_highHalf (highHalf _),
          crcByte_eq_crcByte_highHalf 0#16, BitVec.zero_xor, highHalf_xor]

theorem crcTable_getD (x : Byte) : crcTable.getD x.toNat 0#16 = crcByte 0x0000#16 x := by
  revert x
  decide +kernel

/-- Settles O33: the entries by evaluation, and the table form by the register's two halves. -/
theorem crcByteEqualsTheTable : Obligations.CrcByteEqualsTheTable := by
  unfold Obligations.CrcByteEqualsTheTable
  refine ⟨by decide +kernel, crcTable_getD, fun r x => ?_⟩
  rw [crcByteTable, crcTable_getD, crcByte_eq_shift_xor]

/-! ## The residue -/

/-- The register's own high byte cancels its high half (R131). -/
theorem crcByte_own_highByte (r : Word) : crcByte r (r.extractLsb' 8 8) = r <<< 8 := by
  rw [crcByte_eq_shift_xor, BitVec.xor_self, crcByte_zero, BitVec.xor_zero]

/-- The register's own two bytes, high byte first, leave 0 (R131). -/
theorem crcBytes_own_bytes (r : Word) : crcBytes r [r.extractLsb' 8 8, r.extractLsb' 0 8] = 0#16 := by
  have hlow : r.extractLsb' 0 8 = (r <<< 8).extractLsb' 8 8 := by
    apply BitVec.eq_of_getLsbD_eq
    intro i hi
    simp only [BitVec.getLsbD_extractLsb', BitVec.getLsbD_shiftLeft]
    grind
  rw [crcBytes_cons, crcByte_own_highByte, hlow, crcBytes_cons, crcByte_own_highByte, crcBytes_nil,
    ← BitVec.shiftLeft_add, BitVec.shiftLeft_eq_zero (le_refl 16)]

/-- Settles O37: high byte first leaves 0; low byte first leaves 0 after no message and another value after one zero byte. -/
theorem trailerLeavesResidueZero : Obligations.TrailerLeavesResidueZero := by
  unfold Obligations.TrailerLeavesResidueZero
  constructor
  · intro m k
    rw [crcBytes_append]
    exact crcBytes_own_bytes k
  · rintro ⟨v, hv⟩
    have hsame := (hv []).trans (hv [0x00#8]).symm
    exact absurd hsame (by decide +kernel)

/-! ## The polynomial form -/

section PolynomialForm

open Polynomial

/-- A bit as a coefficient over GF(2) (R130 (e)). -/
noncomputable def bitCoeff (b : Bool) : (ZMod 2)[X] := C (if b then 1 else 0)

@[simp] theorem bitCoeff_false : bitCoeff false = 0 := C_0

@[simp] theorem bitCoeff_true : bitCoeff true = 1 := C_1

/-- Over GF(2) XOR is addition. -/
theorem bitCoeff_xor (a b : Bool) : bitCoeff (a ^^ b) = bitCoeff a + bitCoeff b := by
  have hadd : (if a ^^ b then 1 else 0 : ZMod 2) = (if a then 1 else 0) + (if b then 1 else 0) := by
    revert a b
    decide
  rw [bitCoeff, hadd, C_add]
  rfl

/-- The polynomial of a bit string, the first bit the highest coefficient (R130 (e)). -/
noncomputable def bitPoly (bits : List Bool) : (ZMod 2)[X] := bits.foldl (fun p b => p * X + bitCoeff b) 0

theorem bitPoly_append_singleton (bits : List Bool) (d : Bool) :
    bitPoly (bits ++ [d]) = bitPoly bits * X + bitCoeff d := by
  rw [bitPoly, List.foldl_append]
  rfl

/-- The polynomial of the register, bit `i` the coefficient of `x^i` (R130 (e)). -/
noncomputable def wordPoly (r : Word) : (ZMod 2)[X] := ∑ i : Fin 16, bitCoeff (r.getLsbD i) * X ^ (i : ℕ)

/-- The register's bits, bit 15 first, as a bit string. -/
theorem bitPoly_registerBits (r : Word) : bitPoly ((List.range 16).map fun i => r.getLsbD (15 - i)) = wordPoly r := by
  simp only [bitPoly, wordPoly, Fin.sum_univ_succ, Fin.sum_univ_zero, Fin.val_zero, Fin.val_succ, List.range, List.range.loop,
    List.map, List.foldl]
  ring

theorem degree_wordPoly_lt (r : Word) : (wordPoly r).degree < 16 := degree_sum_fin_lt _

theorem wordPoly_zero : wordPoly 0#16 = 0 := by
  simp [wordPoly]

theorem wordPoly_xor (r q : Word) : wordPoly (r ^^^ q) = wordPoly r + wordPoly q := by
  simp only [wordPoly, BitVec.getLsbD_xor, bitCoeff_xor, add_mul, Finset.sum_add_distrib]

/-- A shift multiplies by `x` and drops the coefficient of `x^16`. -/
theorem wordPoly_shiftLeft (r : Word) : wordPoly (r <<< 1) = wordPoly r * X - bitCoeff r.msb * X ^ 16 := by
  have hshift (i : Fin 15) : (r <<< 1).getLsbD (i + 1) = r.getLsbD i := by
    have hi : (i : ℕ) + 1 < 16 := Nat.succ_lt_succ i.isLt
    rw [BitVec.getLsbD_shiftLeft]
    simp [hi]
  rw [eq_sub_iff_add_eq, BitVec.msb_eq_getLsbD_last, wordPoly, wordPoly, Fin.sum_univ_succ, Fin.sum_univ_castSucc (n := 15)]
  simp only [Fin.val_succ, hshift, Fin.val_last, Fin.val_castSucc, add_mul, Finset.sum_mul]
  simp [pow_succ, mul_assoc]

/-- The generator polynomial `G(x)` (R120). -/
noncomputable def generator : (ZMod 2)[X] := X ^ 16 + X ^ 12 + X ^ 5 + 1

theorem generator_monic : generator.Monic := by
  unfold generator
  monicity!

theorem degree_generator : generator.degree = 16 := by
  unfold generator
  compute_degree!

/-- `CRC_POLY` is `G(x)` without `x^16` (R120), which over GF(2) is `x^16` less `G(x)`. -/
theorem wordPoly_crcPoly : wordPoly Config.crcPoly = X ^ 16 - generator := by
  have hlow : wordPoly Config.crcPoly = X ^ 12 + X ^ 5 + 1 := by
    simp +decide only [wordPoly, getLsbD_crcPoly (Fin.is_lt _), Fin.sum_univ_succ, decide_true, decide_false, bitCoeff_true,
      bitCoeff_false, zero_mul, one_mul, zero_add, Finset.univ_eq_empty, Finset.sum_empty, Fin.val_zero, Fin.val_succ]
    ring
  rw [hlow, ← CharTwo.neg_eq (X ^ 12 + X ^ 5 + 1), generator]
  ring

/-- One message bit multiplies by `x`, adds `d x^16`, and subtracts `G(x)` if the feedback bit is 1 (R120, R130 (e)). -/
theorem wordPoly_crcBit (r : Word) (d : Bool) :
    wordPoly (crcBit r d) = wordPoly r * X + bitCoeff d * X ^ 16 - bitCoeff (r.msb ^^ d) * generator := by
  have hfeedback (b : Bool) : wordPoly (if b then Config.crcPoly else 0#16) = bitCoeff b * (X ^ 16 - generator) := by
    cases b <;> simp [wordPoly_zero, wordPoly_crcPoly]
  rw [crcBit_eq_xor, wordPoly_xor, wordPoly_shiftLeft, hfeedback, bitCoeff_xor]
  ring

/-- The register from 0 is congruent to the message times `x^16`, modulo `G(x)` (R130 (e)). -/
theorem generator_dvd_message_sub_register (bits : List Bool) :
    generator ∣ bitPoly bits * X ^ 16 - wordPoly (bits.foldl crcBit 0#16) := by
  induction bits using List.reverseRecOn with
  | nil => simp [bitPoly, wordPoly_zero]
  | append_singleton bits d ih =>
    obtain ⟨q, hq⟩ := ih
    rw [List.foldl_append, List.foldl_cons, List.foldl_nil, bitPoly_append_singleton, wordPoly_crcBit]
    refine ⟨q * X + bitCoeff ((bits.foldl crcBit 0#16).msb ^^ d), ?_⟩
    linear_combination X * hq

/-- A byte string enters the register bit by bit (R121, R122). -/
theorem crcBytes_eq_foldl_crcBit (r : Word) (bytes : List Byte) :
    crcBytes r bytes = (bytes.flatMap (messageBits false)).foldl crcBit r :=
  crcBytes_eq_foldl_paramBit r bytes

/-- From register 0 the CRC is the remainder of the message times `x^16` (R130 (e)). -/
theorem wordPoly_crcBytes (bytes : List Byte) :
    wordPoly (crcBytes 0#16 bytes) = (bitPoly (bytes.flatMap (messageBits false)) * X ^ 16) %ₘ generator := by
  rw [crcBytes_eq_foldl_crcBit]
  obtain ⟨q, hq⟩ := generator_dvd_message_sub_register (bytes.flatMap (messageBits false))
  refine (div_modByMonic_unique q _ generator_monic ⟨?_, ?_⟩).2.symm
  · linear_combination -hq
  · rw [degree_generator]
    exact degree_wordPoly_lt _

/-- Settles O36: the register is congruent to the message times `x^16`, and of lower degree than `G(x)`. -/
theorem crcIsThePolynomialRemainder : Obligations.CrcIsThePolynomialRemainder := by
  unfold Obligations.CrcIsThePolynomialRemainder
  intro bytes
  exact (bitPoly_registerBits _).trans (wordPoly_crcBytes bytes)

end PolynomialForm

/-! ## The three commands -/

/-- Inside a frame a command that is not allowed there is refused (R174). -/
theorem exec_of_open_of_not_allowed {i : Instr} (hi : allowedIn i true = false) {s : State} (h : s.remaining ≠ 0#16) :
    exec i s = .next (respond .protocolError 0#48 s) := by
  rw [exec_eq_next, afterCommand, commandError.eq_def, (inFrame_eq_true s).2 h, hi]
  rfl

/-- Settles O16: executed with no frame open, refused in one. -/
theorem crcinitSetsTheInitialValue : Obligations.CrcinitSetsTheInitialValue := by
  unfold Obligations.CrcinitSetsTheInitialValue
  refine ⟨decode_encode .crcinit, fun s => ⟨fun h => ?_, fun h => ?_⟩⟩
  · rw [exec_eq_next, afterCommand_crcinit_of_closed h]
    rfl
  · exact exec_of_open_of_not_allowed rfl h

/-- The words of R126 are the encodings. -/
theorem crcbyteWord_eq_encode (x : Byte) : 0x02000000#32 ++ x = encode (.crcbyte x) := by
  revert x
  decide

/-- Settles O17: the words are the encodings, and the byte is fed with no frame open and refused in one. -/
theorem crcbyteFeedsOneByte : Obligations.CrcbyteFeedsOneByte := by
  unfold Obligations.CrcbyteFeedsOneByte
  refine ⟨fun x => ?_, by decide, by decide, fun s x => ⟨fun h => ?_, fun h => ?_⟩⟩
  · rw [crcbyteWord_eq_encode, decode_encode]
  · rw [exec_eq_next, afterCommand_crcbyte_of_closed h]
    rfl
  · exact exec_of_open_of_not_allowed rfl h

/-- Settles O18: the answer is the one of every state. -/
theorem crcrdReturnsTheAccumulator : Obligations.CrcrdReturnsTheAccumulator := by
  unfold Obligations.CrcrdReturnsTheAccumulator
  refine ⟨decode_encode .crcrd, fun s => ?_⟩
  rw [exec_eq_next, afterCommand_crcrd, ← BitVec.ofNat_toNat]
  rfl

end Sys2Proof.Machine
end

section
/-! SUPPORT. The statements about the packet commands (spec/43_packet.md): what `PKTSTART` and `PKTDATA` do and refuse, which steps
open and close a frame, the frame law, and the same packet from the stand-alone commands. -/

namespace Sys2Proof.Machine

/-! ## `PKTSTART` -/

/-- The trailer under a test of a count, by its two bytes (R63). -/
theorem trailerIf_beq (m n k : Word) :
    trailerIf (m == n) k = if m = n then [k.extractLsb' 8 8, k.extractLsb' 0 8] else [] := by
  simp only [trailerIf, trailerBytes_eq, beq_iff_eq]

/-- Outside a frame a code above 255 is refused before the length is looked at (R140, R170). -/
theorem afterCommand_pktstart_of_codeTooBig {s : State} (hr : s.remaining = 0#16) {code : Word}
    (hcode : codeTooBig code = true) (n : Word) : afterCommand (.pktstart code n) s = respond .invalidCode 0#48 s := by
  have hclosed : inFrame s = false := (inFrame_eq_false s).2 hr
  simp [afterCommand, commandError, allowedIn, hclosed, hcode]

/-- Settles O20: the executed `PKTSTART`, with sync marker, header and trailer written out. -/
theorem pktstartOpensAFrame : Obligations.PktstartOpensAFrame := by
  unfold Obligations.PktstartOpensAFrame
  intro s code len hr hcode hlen h k bytes
  have hmax : len ≠ 0xFFFF#16 := by bv_omega
  have hbyte : code.extractLsb' 0 8 = BitVec.ofNat 8 code.toNat := by
    rw [← BitVec.setWidth_eq_extractLsb' (by decide), BitVec.ofNat_toNat]
  have hh : headerBytes code len = h := by rw [headerBytes_of_legal hcode hlen, hbyte]
  rw [exec_eq_next, afterCommand_pktstart_of_closed hr hcode hmax]
  simp only [commandEffect, hh, syncBytes_eq, trailerIf_beq]
  rfl

/-- Settles O21: the three errors in their order. -/
theorem pktstartRefusesBeforeTheFirstByte : Obligations.PktstartRefusesBeforeTheFirstByte := by
  unfold Obligations.PktstartRefusesBeforeTheFirstByte
  intro s code len
  refine ⟨fun hopen => ?_, fun hr hcode => ?_, ?_⟩
  · exact exec_of_open_of_not_allowed rfl hopen
  · rw [exec_eq_next, afterCommand_pktstart_of_codeTooBig hr (decide_eq_true hcode), respond]
  · rintro hr hcode rfl
    rw [exec_eq_next, afterCommand_pktstart_of_overflow hr hcode, respond]

/-- Settles O46: an executed `PKTSTART` overwrites `crc` without reading it, so already the states after it are equal. -/
theorem pktstartForgetsTheOldAccumulator : Obligations.PktstartForgetsTheOldAccumulator := by
  unfold Obligations.PktstartForgetsTheOldAccumulator
  intro s v code len is hr hcode hlen
  have hmax : len ≠ 0xFFFF#16 := by bv_omega
  have hr' : { s with crc := v }.remaining = 0#16 := hr
  rw [execAll_cons, execAll_cons, afterCommand_pktstart_of_closed hr' hcode hmax,
    afterCommand_pktstart_of_closed hr hcode hmax]
  rfl

/-! ## `PKTDATA` -/

/-- The words of R141 are the encodings. -/
theorem pktdataWord_eq_encode (x : Byte) : 0x06000000#32 ++ x = encode (.pktdata x) := by
  revert x
  decide

/-- Outside a frame `PKTDATA` is refused (R141). -/
theorem afterCommand_pktdata_of_closed {s : State} (h : s.remaining = 0#16) (x : Byte) :
    afterCommand (.pktdata x) s = respond .protocolError 0#48 s := by
  simp [afterCommand, commandError, allowedIn, (inFrame_eq_false s).2 h]

/-- Settles O22: the words are the encodings, and the byte is sent in an open frame and refused outside one. -/
theorem pktdataSendsOneByte : Obligations.PktdataSendsOneByte := by
  unfold Obligations.PktdataSendsOneByte
  refine ⟨fun x => ?_, fun s x => ⟨fun hopen => ?_, fun hr => ?_⟩⟩
  · rw [pktdataWord_eq_encode, decode_encode]
  · intro k bytes
    have hcount : s.remaining - 1#16 = BitVec.ofNat 16 (s.remaining.toNat - 1) := by bv_omega
    rw [exec_eq_next, afterCommand_pktdata_of_open hopen]
    simp only [commandEffect, hcount, trailerIf_beq]
    rfl
  · rw [exec_eq_next, afterCommand_pktdata_of_closed hr, respond]

/-! ## Opening and closing a frame -/

/-- Only the two packet commands, executed, write `remaining` (R140, R141). -/
theorem afterCommand_remaining_cases (i : Instr) (s : State) :
    (afterCommand i s).remaining = s.remaining ∨
    (∃ code n, i = .pktstart code n ∧ code.toNat ≤ 255 ∧ n ≠ 0xFFFF#16 ∧ s.remaining = 0#16 ∧
      (afterCommand i s).remaining = n) ∨
    (∃ x, i = .pktdata x ∧ s.remaining ≠ 0#16 ∧ (afterCommand i s).remaining = s.remaining - 1#16) := by
  obtain ⟨e, -, -, heq⟩ | ⟨hnone, heq⟩ := afterCommand_cases i s <;> rw [heq]
  · exact .inl rfl
  · cases i with
    | nop => exact .inl rfl
    | crcinit => exact .inl rfl
    | crcbyte x => exact .inl rfl
    | crcrd => exact .inl rfl
    | hdrbld code n => exact .inl rfl
    | pktstart code n =>
      obtain ⟨hr, hcode, hn⟩ := (commandError_pktstart_eq_none code n s).1 hnone
      exact .inr (.inl ⟨code, n, rfl, hcode, hn, hr, rfl⟩)
    | pktdata x => exact .inr (.inr ⟨x, rfl, (commandError_pktdata_eq_none x s).1 hnone, rfl⟩)

/-- A step changes `remaining` only by reset or by a word that decodes, whose command then decides it (R142). -/
theorem step_remaining_cases {s t : State} (h : step s = .next t) :
    t.remaining = s.remaining ∨
    ((∃ rest, s.pending = .reset :: rest) ∧ t.remaining = 0#16) ∨
    (∃ w rest i, s.pending = .command w :: rest ∧ decode w = .ok i ∧ t = afterCommand i { s with pending := rest }) := by
  obtain ⟨m, rest, hp, hm⟩ := exists_makeMove_of_step h
  cases m with
  | command w =>
    obtain ⟨-, -, rfl⟩ | ⟨i, hw, rfl⟩ := acceptWord_cases hm
    · exact .inl rfl
    · exact .inr (.inr ⟨w, rest, i, hp, hw, rfl⟩)
  | takeTx =>
    obtain ⟨waiting, sent, heq⟩ := takeTx_eq_update { s with pending := rest }
    rw [← Host.Outcome.next.inj hm, heq]
    exact .inl rfl
  | takeResponse =>
    obtain ⟨waiting, taken, heq⟩ := takeResponse_eq_update { s with pending := rest }
    rw [← Host.Outcome.next.inj hm, heq]
    exact .inl rfl
  | reset =>
    rw [← Host.Outcome.next.inj hm]
    exact .inr (.inl ⟨⟨rest, hp⟩, rfl⟩)

/-- Settles O28: of the steps that change `remaining`, only `PKTSTART` begins at 0, and only reset and the `PKTDATA` at 1 end
there. -/
theorem framesOpenAndCloseOnlyAsStated : Obligations.FramesOpenAndCloseOnlyAsStated := by
  unfold Obligations.FramesOpenAndCloseOnlyAsStated
  intro s t h
  obtain hsame | ⟨hreset, ht⟩ | ⟨w, rest, i, hp, hw, rfl⟩ := step_remaining_cases h
  · exact ⟨fun hs ht => absurd (hsame.trans hs) ht, fun hs ht => absurd (hsame.symm.trans ht) hs⟩
  · exact ⟨fun _ hne => absurd ht hne, fun _ _ => .inl hreset⟩
  · obtain hsame | ⟨code, n, rfl, hcode, hn, hr, hrem⟩ | ⟨x, rfl, hr, hrem⟩ :=
      afterCommand_remaining_cases i { s with pending := rest }
    · exact ⟨fun hs ht => absurd (hsame.trans hs) ht, fun hs ht => absurd (hsame.symm.trans ht) hs⟩
    · exact ⟨fun _ ht => ⟨w, rest, code, n, hp, hw, hcode, hrem ▸ ht, hn, hrem⟩, fun hs => absurd hr hs⟩
    · refine ⟨fun hs => absurd hs hr, fun _ ht => .inr ⟨?_, w, rest, x, hp, hw⟩⟩
      exact sub_eq_zero.1 (hrem.symm.trans ht)

/-! ## The frame law -/

/-- Commands run from `s` to `t`: they emit `bytes`, answer once each, and with `OK` where their operands are in range. -/
structure RunAnswers (is : List Instr) (bytes : List Byte) (s t : State) : Prop where
  run : execAll is s = .next t
  txStream : t.txStream = s.txStream ++ bytes
  txQueue : t.txQueue = s.txQueue ++ bytes
  responses : ∃ rs, t.rspStream = s.rspStream ++ rs ∧ rs.length = is.length ∧
    ∀ q ∈ is.zip rs, q.1.operandsInRange = true → q.2.status = .ok

theorem RunAnswers.nil (s : State) : RunAnswers [] [] s s :=
  ⟨rfl, by simp, by simp, [], by simp⟩

/-- One command more in front, with its answer and its bytes. -/
theorem RunAnswers.cons {i : Instr} {is : List Instr} {r : Response} {first bytes : List Byte} {s u t : State}
    (hnext : afterCommand i s = u) (hans : Answers r first s u) (hok : i.operandsInRange = true → r.status = .ok)
    (hrun : RunAnswers is bytes u t) : RunAnswers (i :: is) (first ++ bytes) s t := by
  subst hnext
  obtain ⟨rs, hrs, hlen, hall⟩ := hrun.responses
  refine ⟨(execAll_cons i is s).trans hrun.run, ?_, ?_, r :: rs, ?_, congrArg (· + 1) hlen, ?_⟩
  · rw [hrun.txStream, hans.txStream, List.append_assoc]
  · rw [hrun.txQueue, hans.txQueue, List.append_assoc]
  · rw [hrs, hans.rspStream, List.append_assoc, List.singleton_append]
  · rw [List.zip_cons_cons, List.forall_mem_cons]
    exact ⟨hok, hall⟩

/-- The passive commands are those that only respond (R144). -/
theorem reading_of_passive {i : Instr} (h : i.passive = true) : i = .nop ∨ i = .crcrd ∨ ∃ c n, i = .hdrbld c n := by
  cases i <;> simp_all [Instr.passive]

/-- A passive command is allowed inside a frame and outside one, so operands in range are all it needs (R110, R174). -/
theorem commandError_eq_none_of_passive {i : Instr} (h : i.passive = true) (hrange : i.operandsInRange = true) (s : State) :
    commandError i s = none := by
  obtain rfl | rfl | ⟨c, n, rfl⟩ := reading_of_passive h
  · rfl
  · rfl
  · simp_all [commandError, allowedIn, Instr.operandsInRange]

/-- A passive command emits nothing, and answers `OK` if its operands are in range. -/
theorem exists_answers_of_passive {i : Instr} (h : i.passive = true) (s : State) :
    ∃ r, Answers r [] s (afterCommand i s) ∧ (i.operandsInRange = true → r.status = .ok) := by
  obtain ⟨r, bytes, -, hans⟩ := afterCommand_answers i s
  obtain ⟨-, -, htx⟩ := afterCommand_registers_of_reading (reading_of_passive h) s
  obtain rfl := hans.bytes_eq_nil htx
  refine ⟨r, hans, fun hrange => ?_⟩
  obtain ⟨d, hd⟩ := commandEffect_rspStream i s
  have hr := hans.rspStream
  rw [afterCommand, commandError_eq_none_of_passive h hrange] at hr
  have heq : [r] = [⟨.ok, d⟩] := List.append_cancel_left (hr.symm.trans hd)
  rw [List.singleton_inj.1 heq]

/-- What an open frame with the data bytes `d` to come, its checksum at `k`, still emits; a closed frame emits nothing (R141). -/
def owedBytes (k : Word) (d : List Byte) : List Byte := if d.isEmpty then [] else d ++ trailerBytes (crcBytes k d)

/-- The trailer comes with the last byte: at once where no data is to come, else at its end (R140, R141). -/
theorem trailerIf_append_owedBytes (k : Word) (d : List Byte) :
    trailerIf d.isEmpty k ++ owedBytes k d = d ++ trailerBytes (crcBytes k d) := by
  cases d <;> simp [owedBytes]

theorem owedBytes_cons (k : Word) (x : Byte) (d : List Byte) :
    owedBytes k (x :: d) = [x] ++ trailerIf d.isEmpty (crcByte k x) ++ owedBytes (crcByte k x) d := by
  rw [List.append_assoc, trailerIf_append_owedBytes]
  rfl

/-- A count that is `n` above the number of bytes in `d` is `n` exactly when `d` is empty. -/
theorem beq_eq_isEmpty_of_toNat {m n : Word} {d : List Byte} (h : m.toNat = d.length + n.toNat) :
    (m == n) = d.isEmpty := by
  rw [Bool.eq_iff_iff, beq_iff_eq, List.isEmpty_iff, ← List.length_eq_zero_iff]
  bv_omega

/-- The rest of an open frame: the data bytes it owes, with passive commands anywhere, close it and emit what it still owes
(R141, R144). -/
theorem exists_runAnswers_of_owed (is : List Instr) (d : List Byte) (s : State) (hlen : s.remaining.toNat = d.length)
    (hdata : is.filter (fun i => !i.passive) = d.map Instr.pktdata) :
    ∃ t, RunAnswers is (owedBytes s.crc d) s t ∧ t.remaining = 0#16 ∧ t.crc = crcBytes s.crc d := by
  induction is generalizing d s with
  | nil =>
    obtain rfl : d = [] := List.map_eq_nil_iff.1 hdata.symm
    exact ⟨s, RunAnswers.nil s, BitVec.eq_of_toNat_eq hlen, rfl⟩
  | cons i is ih =>
    cases hp : i.passive with
    | true =>
      obtain ⟨hcrc, hrem, -⟩ := afterCommand_registers_of_reading (reading_of_passive hp) s
      obtain ⟨r, hans, hok⟩ := exists_answers_of_passive hp s
      obtain ⟨t, hrun, ht⟩ := ih d (afterCommand i s) (by rw [hrem, hlen]) (by simpa [hp] using hdata)
      rw [hcrc] at hrun ht
      exact ⟨t, RunAnswers.cons rfl hans hok hrun, ht⟩
    | false =>
      rw [List.filter_cons_of_pos (by simp [hp])] at hdata
      obtain ⟨x, d, rfl, rfl, hrest⟩ := List.map_eq_cons_iff.1 hdata.symm
      rw [List.length_cons] at hlen
      have hopen : s.remaining ≠ 0#16 := by bv_omega
      have hleft : (s.remaining - 1#16).toNat = d.length := by bv_omega
      obtain ⟨t, hrun, ht⟩ := ih d (commandEffect (.pktdata x) s) hleft hrest.symm
      rw [owedBytes_cons, ← beq_eq_isEmpty_of_toNat (n := 1#16) hlen]
      exact ⟨t, RunAnswers.cons (afterCommand_pktdata_of_open hopen x) (answers_respond_emit _ _ _ _ _ s) (fun _ => rfl) hrun,
        ht⟩

/-- A packet as `PKTSTART` begins it and its data bytes end it (R60, R140). -/
theorem packetBytes_eq_append_owedBytes (code : Word) (d : List Byte) :
    packetBytes code d =
      syncBytes ++ headerBytes code (BitVec.ofNat 16 d.length) ++
          trailerIf d.isEmpty (crcBytes Config.crcInit (headerBytes code (BitVec.ofNat 16 d.length))) ++
        owedBytes (crcBytes Config.crcInit (headerBytes code (BitVec.ofNat 16 d.length))) d := by
  rw [List.append_assoc, trailerIf_append_owedBytes, ← crcBytes_append, packetBytes, checksum, List.append_assoc _ d]

/-- From a closed state a packet's `PKTSTART`, then its `PKTDATA` with passive commands anywhere (R144). -/
theorem exists_runAnswers_of_packet {code : Word} {d : List Byte} (hcode : code.toNat ≤ 255) (hd : d.length ≤ 65534)
    {is : List Instr} (hdata : is.filter (fun i => !i.passive) = d.map Instr.pktdata) {s : State} (hr : s.remaining = 0#16) :
    ∃ t, RunAnswers (.pktstart code (BitVec.ofNat 16 d.length) :: is) (packetBytes code d) s t ∧ t.remaining = 0#16 ∧
      t.crc = checksum (packetBody code d) := by
  have hlen : (BitVec.ofNat 16 d.length).toNat = d.length := by bv_omega
  have hmax : BitVec.ofNat 16 d.length ≠ 0xFFFF#16 := by bv_omega
  obtain ⟨t, hrun, ht, hcrc⟩ :=
    exists_runAnswers_of_owed is d (commandEffect (.pktstart code (BitVec.ofNat 16 d.length)) s) hlen hdata
  rw [packetBytes_eq_append_owedBytes, ← beq_eq_isEmpty_of_toNat (n := 0#16) hlen]
  exact ⟨t, RunAnswers.cons (afterCommand_pktstart_of_closed hr hcode hmax) (answers_respond_emit _ _ _ _ _ s)
    (fun _ => rfl) hrun, ht, hcrc.trans (crcBytes_append _ _ _).symm⟩

/-- Settles O42: the packet's run, its bytes written out. -/
theorem frameEmitsExactlyThePacket : Obligations.FrameEmitsExactlyThePacket := by
  unfold Obligations.FrameEmitsExactlyThePacket
  intro s code d is hr hcode hd hdata h k cs p
  have hp : packetBytes code d = p := by rw [packetBytes, syncBytes_eq, trailerBytes_eq]; rfl
  obtain ⟨t, hrun, ht, hcrc⟩ := exists_runAnswers_of_packet hcode hd hdata hr
  rw [hp] at hrun
  obtain ⟨rs, hrs, hlen, hall⟩ := hrun.responses
  exact ⟨t, rs, hrun.run, ht, hcrc, hrun.txStream, hrun.txQueue, hrs, hlen, hall⟩

/-! ## The checksum read back, and the stand-alone commands -/

@[simp] theorem closedAfter_crc (n : Nat) (k : Word) (bytes : List Byte) (s : State) :
    (closedAfter n k bytes s).crc = k := rfl

/-- Settles O43: the packet leaves its checksum in `crc`, and `CRCRD` answers `crc`. -/
theorem crcrdAfterAFrameReturnsItsChecksum : Obligations.CrcrdAfterAFrameReturnsItsChecksum := by
  unfold Obligations.CrcrdAfterAFrameReturnsItsChecksum
  intro s code d hr hcode hd
  rw [execAll_packetMacro_append hcode hd _ hr, execAll_cons, afterCommand_crcrd, execAll_nil, closedAfter_crc]
  refine ⟨_, List.replicate (d.length + 1) ⟨.ok, 0#48⟩, rfl, ?_, ?_⟩
  · rw [respond_txStream, closedAfter_txStream]
  · rw [respond_rspStream, closedAfter_rspStream, packetBody]

/-- `HDRBLD`'s six bytes and `CRCRD`'s two, around the data, are the packet (R145). -/
theorem packetBytes_eq_standAlone (code : Word) (d : List Byte) :
    packetBytes code d =
      [0x35#8, 0x2E#8, 0xF8#8, 0x53#8] ++ be (hdr48 code (BitVec.ofNat 16 d.length)) 6 ++ d ++
        be (((checksum (packetBody code d)).setWidth 48).setWidth 16) 2 := by
  have hk (k : Word) : (k.setWidth 48).setWidth 16 = k := by bv_omega
  rw [hk, packetBytes, syncBytes_eq]
  rfl

/-- Settles O44: each command is executed, and the two responses with data are the header value and the checksum. -/
theorem standAloneCommandsGiveTheSamePacket : Obligations.StandAloneCommandsGiveTheSamePacket := by
  unfold Obligations.StandAloneCommandsGiveTheSamePacket
  intro s code d hr hcode hd
  have hlen : (BitVec.ofNat 16 d.length).toNat ≤ 65534 := by bv_omega
  rw [List.cons_append, execAll_cons, afterCommand_hdrbld_of_legal hcode hlen, List.singleton_append, execAll_cons,
    afterCommand_crcinit_of_closed (by simpa using hr), execAll_crcbytes_append _ _ (by simpa using hr), execAll_cons,
    afterCommand_crcrd, execAll_nil]
  refine ⟨_, List.replicate (1 + (packetBody code d).length) ⟨.ok, 0#48⟩, hdr48 code (BitVec.ofNat 16 d.length),
    (checksum (packetBody code d)).setWidth 48, rfl, ?_, fun r => List.eq_of_mem_replicate, rfl,
    (packetBytes_eq_standAlone code d).symm⟩
  simp [packetBody, checksum, List.replicate_add]

end Sys2Proof.Machine
end

section
/-! SUPPORT. The statement about the miscellaneous family (spec/44_misc.md): what `NOP` does. -/

namespace Sys2Proof.Machine

/-- `NOP` answers `(OK, 0)` in every state, since no state refuses it (R160, R174). -/
theorem afterCommand_nop (s : State) : afterCommand .nop s = respond .ok 0#48 s := rfl

/-- Settles O15: the word is the encoding of `NOP`, and the answer is the one of every state. -/
theorem nopOnlyAnswers : Obligations.NopOnlyAnswers := by
  unfold Obligations.NopOnlyAnswers
  refine ⟨decode_encode .nop, fun s => ?_⟩
  rw [exec_eq_next, afterCommand_nop, respond]

end Sys2Proof.Machine
end

section
/-! SUPPORT. The statements about errors (spec/60_exceptions.md): which words and commands are refused and with which status, that a
refusal has no other effect, and that what follows a refused command goes on without it. -/

namespace Sys2Proof.Machine

/-! ## After a refused command -/

/-- The state with other responses made so far and other responses waiting. -/
def setResponses (made waiting : List Response) (s : State) : State :=
  { s with rspStream := made, rspQueue := waiting }

/-- What an executed command does besides responding, and what it responds, does not depend on earlier responses (R12). -/
theorem exists_commandEffect_setResponses (i : Instr) (s : State) :
    ∃ r, ∀ made waiting,
      commandEffect i (setResponses made waiting s) =
        setResponses (made ++ [r]) (waiting ++ [r]) (commandEffect i s) := by
  cases i with
  | crcrd => exact ⟨⟨.ok, s.crc.setWidth 48⟩, fun _ _ => rfl⟩
  | _ => exact ⟨_, fun _ _ => rfl⟩

/-- No command reads the responses: it adds the same one to whatever was answered before, and does the rest alike (R12, R46). -/
theorem exists_afterCommand_setResponses (i : Instr) (s : State) :
    ∃ t r, ∀ made waiting,
      afterCommand i (setResponses made waiting s) = setResponses (made ++ [r]) (waiting ++ [r]) t := by
  obtain ⟨e, -, he, -⟩ | ⟨hnone, -⟩ := afterCommand_cases i s
  · have he' (made waiting) : commandError i (setResponses made waiting s) = some e := he
    exact ⟨s, ⟨e, 0#48⟩, fun made waiting => by rw [afterCommand, he']; rfl⟩
  · have hnone' (made waiting) : commandError i (setResponses made waiting s) = none := hnone
    obtain ⟨r, hr⟩ := exists_commandEffect_setResponses i s
    exact ⟨commandEffect i s, r, fun made waiting => by rw [afterCommand, hnone', ← hr]⟩

/-- The same of a command sequence. -/
theorem exists_execAll_setResponses (is : List Instr) (s : State) :
    ∃ t rs, ∀ made waiting,
      execAll is (setResponses made waiting s) = .next (setResponses (made ++ rs) (waiting ++ rs) t) := by
  induction is generalizing s with
  | nil => exact ⟨s, [], fun made waiting => by simp⟩
  | cons i is ih =>
    obtain ⟨u, r, hu⟩ := exists_afterCommand_setResponses i s
    obtain ⟨t, rs, ht⟩ := ih u
    exact ⟨t, r :: rs, fun made waiting => by rw [execAll_cons, hu, ht, List.append_assoc, List.append_assoc]; rfl⟩

/-- Settles O26: the refused command leaves only its response, which the commands after it do not read. -/
theorem refusedCommandIsAsIfNeverIssued : Obligations.RefusedCommandIsAsIfNeverIssued := by
  unfold Obligations.RefusedCommandIsAsIfNeverIssued
  intro s i e is hrefused
  rw [exec_eq_next] at hrefused
  obtain ⟨t, rs, ht⟩ := exists_execAll_setResponses is s
  refine ⟨setResponses (s.rspStream ++ rs) (s.rspQueue ++ rs) t, rs, ht s.rspStream s.rspQueue, rfl, rfl, ?_⟩
  rw [execAll_cons, Host.Outcome.next.inj hrefused]
  refine (ht _ _).trans ?_
  rw [List.append_assoc, List.append_assoc]
  rfl

/-! ## The status of a command -/

/-- The status a command is answered with in a state: its error, or `OK` if it meets none (R79, R175). -/
def commandStatus (i : Instr) (s : State) : Status := (commandError i s).getD .ok

theorem commandStatus_of_error {i : Instr} {s : State} {e : Status} (h : commandError i s = some e) :
    commandStatus i s = e := by
  rw [commandStatus, h, Option.getD_some]

theorem commandStatus_of_none {i : Instr} {s : State} (h : commandError i s = none) : commandStatus i s = .ok := by
  rw [commandStatus, h, Option.getD_none]

/-- The one response has this status (R46). -/
theorem afterCommand_rspStream (i : Instr) (s : State) :
    ∃ d, (afterCommand i s).rspStream = s.rspStream ++ [⟨commandStatus i s, d⟩] := by
  obtain ⟨e, -, he, heq⟩ | ⟨hnone, heq⟩ := afterCommand_cases i s
  · rw [heq, commandStatus_of_error he]
    exact ⟨0#48, respond_rspStream ..⟩
  · rw [heq, commandStatus_of_none hnone]
    exact commandEffect_rspStream i s

theorem commandStatus_of_not_allowed {i : Instr} {s : State} (h : allowedIn i (inFrame s) = false) :
    commandStatus i s = .protocolError := by
  apply commandStatus_of_error
  rw [commandError.eq_def, h]
  rfl

/-- A command the table allows meets an operand error or none (R110, R140, R170, R171). -/
theorem commandStatus_mem_of_allowed {i : Instr} {s : State} (h : allowedIn i (inFrame s) = true) :
    commandStatus i s ∈ [.ok, .invalidCode, .lengthOverflow] := by
  rw [commandStatus, commandError.eq_def, if_pos h]
  cases i with
  | hdrbld code n => dsimp only; split_ifs <;> decide
  | pktstart code n => dsimp only; split_ifs <;> decide
  | _ => exact List.mem_cons_self

/-- `ProtocolError` is what the table of frame conditions refuses: the operand errors have other names (R174). -/
theorem commandStatus_eq_protocolError_iff (i : Instr) (s : State) :
    commandStatus i s = .protocolError ↔ allowedIn i (inFrame s) = false := by
  refine ⟨fun h => ?_, commandStatus_of_not_allowed⟩
  by_contra hallowed
  have hmem := commandStatus_mem_of_allowed (Bool.not_eq_false _ ▸ hallowed)
  rw [h] at hmem
  exact absurd hmem (by decide)

/-- No command is answered `IllegalOp` (R173). -/
theorem commandStatus_ne_illegalOp (i : Instr) (s : State) : commandStatus i s ≠ .illegalOp := by
  intro h
  cases hallowed : allowedIn i (inFrame s) with
  | false => exact absurd (h.symm.trans (commandStatus_of_not_allowed hallowed)) (by decide)
  | true => exact absurd (h ▸ commandStatus_mem_of_allowed hallowed) (by decide)

/-- What the table refuses, by the frame condition (R22, R174). -/
theorem not_allowedIn_inFrame_iff (i : Instr) (s : State) :
    allowedIn i (inFrame s) = false ↔
      (s.remaining ≠ 0#16 ∧ allowedIn i true = false) ∨ (s.remaining = 0#16 ∧ allowedIn i false = false) := by
  by_cases hr : s.remaining = 0#16
  · simp [hr, (inFrame_eq_false s).2 hr]
  · simp [hr, (inFrame_eq_true s).2 hr]

/-- The table's column of an open frame (R174). -/
theorem not_allowedIn_true_iff (i : Instr) :
    allowedIn i true = false ↔ i = .crcinit ∨ (∃ x, i = .crcbyte x) ∨ ∃ c n, i = .pktstart c n := by
  cases i <;> simp [allowedIn]

/-- The table's column of no open frame (R174). -/
theorem not_allowedIn_false_iff (i : Instr) : allowedIn i false = false ↔ ∃ x, i = .pktdata x := by
  cases i <;> simp [allowedIn]

/-- Settles O23: the two columns of the table. -/
theorem protocolErrorFollowsTheFrameTable : Obligations.ProtocolErrorFollowsTheFrameTable := by
  unfold Obligations.ProtocolErrorFollowsTheFrameTable
  refine ⟨rfl, fun i s => ?_⟩
  obtain ⟨d, hd⟩ := afterCommand_rspStream i s
  refine ⟨_, _, exec_eq_next i s, hd, ?_⟩
  rw [commandStatus_eq_protocolError_iff, not_allowedIn_inFrame_iff, not_allowedIn_true_iff, not_allowedIn_false_iff]

/-! ## The answer to a word -/

/-- A step on a word that decodes leaves the state after its command (R13). -/
theorem step_of_decode_ok {w : CommandWord} {i : Instr} (h : decode w = .ok i) (s : State) (rest : List HostMove) :
    step { s with pending := .command w :: rest } = .next (afterCommand i { s with pending := rest }) := by
  rw [step_command, acceptWord_of_decode_ok h, exec_eq_next]

/-- Settles O25: an illegal word and a refused command only respond, and an executed command answers `OK`. -/
theorem refusedCommandsHaveNoOtherEffect : Obligations.RefusedCommandsHaveNoOtherEffect := by
  unfold Obligations.RefusedCommandsHaveNoOtherEffect
  intro s w rest
  cases hw : decode w with
  | error e => exact ⟨_, _, step_of_decode_error hw s rest, rfl, fun _ => ⟨rfl, rfl⟩⟩
  | ok i =>
    have hstep := step_of_decode_ok hw s rest
    obtain ⟨e, -, -, heq⟩ | ⟨-, heq⟩ := afterCommand_cases i { s with pending := rest } <;> rw [heq] at hstep
    · exact ⟨_, _, hstep, rfl, fun _ => ⟨rfl, rfl⟩⟩
    · obtain ⟨d, hd⟩ := commandEffect_rspStream i { s with pending := rest }
      exact ⟨_, _, hstep, hd, fun hne => absurd rfl hne⟩

/-! ## The fields of a word as numbers -/

theorem opField_toNat (w : CommandWord) : (opField w).toNat = w.toNat / 2 ^ 32 := by
  rw [opField, BitVec.extractLsb'_toNat, Nat.shiftRight_eq_div_pow]
  omega

theorem aField_toNat (w : CommandWord) : (aField w).toNat = w.toNat / 2 ^ 16 % 2 ^ 16 := by
  rw [aField, BitVec.extractLsb'_toNat, Nat.shiftRight_eq_div_pow]

theorem bField_toNat (w : CommandWord) : (bField w).toNat = w.toNat % 2 ^ 16 := by
  rw [bField, BitVec.extractLsb'_toNat, Nat.shiftRight_zero]

/-- The operand bits of a word are all 0 when both operand fields are (R70). -/
theorem operands_eq_zero_iff (w : CommandWord) : aField w = 0#16 ∧ bField w = 0#16 ↔ w.toNat % 2 ^ 32 = 0 := by
  rw [← BitVec.toNat_inj, ← BitVec.toNat_inj, aField_toNat, bField_toNat, BitVec.toNat_ofNat]
  omega

/-- The operand bits of a word above its byte are all 0 when `a` and the high byte of `b` are (R70). -/
theorem highOperands_eq_zero_iff (w : CommandWord) :
    aField w = 0#16 ∧ bHighField w = 0#8 ↔ w.toNat % 2 ^ 32 / 2 ^ 8 = 0 := by
  rw [← BitVec.toNat_inj, ← BitVec.toNat_inj, aField_toNat, bHighField_toNat, bField_toNat, BitVec.toNat_ofNat,
    BitVec.toNat_ofNat]
  omega

/-! ## Illegal words -/

theorem formatOf_eq_none (op : Byte) : formatOf op = none ↔ 6 < op.toNat := by
  revert op; decide

/-- A word is no legal one exactly if its opcode is above 6 or a bit its format reserves is 1 (R71, R75). -/
theorem wordWellFormed_eq_false_iff (w : CommandWord) :
    wordWellFormed w = false ↔
      6 < w.toNat / 2 ^ 32 ∨ (w.toNat / 2 ^ 32 ∈ [0, 1, 3] ∧ w.toNat % 2 ^ 32 ≠ 0) ∨
        (w.toNat / 2 ^ 32 ∈ [2, 6] ∧ w.toNat % 2 ^ 32 / 2 ^ 8 ≠ 0) := by
  rw [← opField_toNat, ne_eq, ne_eq, ← operands_eq_zero_iff, ← highOperands_eq_zero_iff]
  cases hf : formatOf (opField w) with
  | none => simp [wordWellFormed, opcodeDefined, hf, (formatOf_eq_none _).1 hf]
  | some f =>
    cases f with
    | z =>
      simp only [wordWellFormed, opcodeDefined, reservedBitsZero, hf]
      rcases (formatOf_eq_z _).1 hf with hop | hop | hop <;> simp [hop]
    | b =>
      simp only [wordWellFormed, opcodeDefined, reservedBitsZero, hf]
      rcases (formatOf_eq_b _).1 hf with hop | hop <;> simp [hop]
    | cl =>
      simp only [wordWellFormed, opcodeDefined, reservedBitsZero, hf]
      rcases (formatOf_eq_cl _).1 hf with hop | hop <;> simp [hop]

/-- The words that do not decode, by the same test (R73, R75). -/
theorem exists_decode_error_iff_toNat (w : CommandWord) :
    (∃ e, decode w = .error e) ↔
      6 < w.toNat / 2 ^ 32 ∨ (w.toNat / 2 ^ 32 ∈ [0, 1, 3] ∧ w.toNat % 2 ^ 32 ≠ 0) ∨
        (w.toNat / 2 ^ 32 ∈ [2, 6] ∧ w.toNat % 2 ^ 32 / 2 ^ 8 ≠ 0) := by
  rw [← wordWellFormed_eq_false_iff, ← Bool.not_eq_true, wellFormedWordsAreTheOnesThatDecode w]
  cases decode w <;> simp

/-- Settles O6: the condition says that the word does not decode, and no command is answered `IllegalOp`. -/
theorem illegalOpIsDecidedFromTheWordAlone : Obligations.IllegalOpIsDecidedFromTheWordAlone := by
  unfold Obligations.IllegalOpIsDecidedFromTheWordAlone
  refine ⟨rfl, fun s w rest => ?_⟩
  intro op
  cases hw : decode w with
  | error e =>
    rw [if_pos ((exists_decode_error_iff_toNat w).1 ⟨e, hw⟩)]
    exact step_of_decode_error hw s rest
  | ok i =>
    rw [if_neg (mt (exists_decode_error_iff_toNat w).2 (by simp [hw]))]
    obtain ⟨d, hd⟩ := afterCommand_rspStream i { s with pending := rest }
    exact ⟨_, _, step_of_decode_ok hw s rest, hd, commandStatus_ne_illegalOp i _⟩

/-! ## The order of the errors -/

theorem opField_encode (i : Instr) : opField (encode i) = opcodeOf i := by
  cases i <;> exact opField_packWord _ _ _

/-- The table of frame conditions by opcode: its column of an open frame (R74, R174). -/
theorem not_allowedIn_true_iff_opcode (i : Instr) : allowedIn i true = false ↔ (opcodeOf i).toNat ∈ [1, 2, 5] := by
  cases i <;> simp [allowedIn, opcodeOf]

/-- Its column of no open frame. -/
theorem not_allowedIn_false_iff_opcode (i : Instr) : allowedIn i false = false ↔ (opcodeOf i).toNat = 6 := by
  cases i <;> simp [allowedIn, opcodeOf]

/-- The two operand errors in their order, by the operands as numbers (R110, R140, R175). -/
theorem operandStatus_eq (code n : Word) :
    (if codeTooBig code then some Status.invalidCode else if lengthTooBig n then some .lengthOverflow else none).getD .ok =
      if 255 < code.toNat then .invalidCode else if n.toNat = 65535 then .lengthOverflow else .ok := by
  have hn : lengthTooBig n = decide (n.toNat = 65535) := by
    rw [Bool.eq_iff_iff, lengthTooBig, decide_eq_true_eq, decide_eq_true_eq, show Config.maxDataLen = 65534 from rfl]
    bv_omega
  simp only [codeTooBig, hn, show Config.codeMax = 255 from rfl, decide_eq_true_eq]
  split_ifs <;> rfl

/-- A command the table allows meets an operand error or none, read from the fields of its word (R110, R140, R170, R171). -/
theorem commandStatus_of_allowed {i : Instr} {s : State} (h : allowedIn i (inFrame s) = true) :
    commandStatus i s =
      if (opcodeOf i).toNat ∈ [4, 5] ∧ 255 < (aField (encode i)).toNat then .invalidCode
      else if (opcodeOf i).toNat ∈ [4, 5] ∧ (bField (encode i)).toNat = 65535 then .lengthOverflow
      else .ok := by
  rw [commandStatus, commandError.eq_def, if_pos h]
  cases i with
  | hdrbld code n => simpa [encode, opcodeOf, aField_packWord, bField_packWord] using operandStatus_eq code n
  | pktstart code n => simpa [encode, opcodeOf, aField_packWord, bField_packWord] using operandStatus_eq code n
  | _ => rfl

/-- The one status of a command is the first that applies, read from the fields of its word and `remaining` (R175). -/
theorem commandStatus_eq (i : Instr) (s : State) :
    commandStatus i s =
      if ((opcodeOf i).toNat ∈ [1, 2, 5] ∧ s.remaining ≠ 0#16) ∨ ((opcodeOf i).toNat = 6 ∧ s.remaining = 0#16) then
        .protocolError
      else if (opcodeOf i).toNat ∈ [4, 5] ∧ 255 < (aField (encode i)).toNat then .invalidCode
      else if (opcodeOf i).toNat ∈ [4, 5] ∧ (bField (encode i)).toNat = 65535 then .lengthOverflow
      else .ok := by
  have htable := not_allowedIn_inFrame_iff i s
  rw [not_allowedIn_true_iff_opcode, not_allowedIn_false_iff_opcode, and_comm, and_comm (a := s.remaining = 0#16)] at htable
  cases h : allowedIn i (inFrame s) with
  | false => rw [if_pos (htable.1 h), commandStatus_of_not_allowed h]
  | true => rw [if_neg (mt htable.2 (by simp [h])), commandStatus_of_allowed h]

/-- Settles O24: a word that matches no row is illegal; any other is the encoding of its command, and its fields decide. -/
theorem statusIsTheFirstErrorThatApplies : Obligations.StatusIsTheFirstErrorThatApplies := by
  unfold Obligations.StatusIsTheFirstErrorThatApplies
  intro s w rest op a b
  cases hw : decode w with
  | error e =>
    exact ⟨_, _, step_of_decode_error hw s rest, rfl, (if_pos ((exists_decode_error_iff w).1 ⟨e, hw⟩)).symm⟩
  | ok i =>
    obtain ⟨d, hd⟩ := afterCommand_rspStream i { s with pending := rest }
    refine ⟨_, _, step_of_decode_ok hw s rest, hd, ?_⟩
    have hstatus := commandStatus_eq i { s with pending := rest }
    rw [← opField_encode, onlyEncodingsDecode w i hw, opField_toNat, aField_toNat, bField_toNat] at hstatus
    rw [if_neg (mt (exists_decode_error_iff w).2 (by simp [hw]))]
    exact hstatus

end Sys2Proof.Machine
end

section
/-! SUPPORT. The statements about reset, the host's duties and the end of a run (spec/70_reset_and_hazards.md): what a reset move
does, where the block stops, what leaves an open frame as it is, and that a host that keeps its duties is never refused. -/

namespace Sys2Proof.Machine

/-! ## Reset, and the end of a run -/

/-- A step with a reset pending first makes it (R200, R214). -/
theorem step_reset {s : State} {rest : List HostMove} (h : s.pending = .reset :: rest) :
    step s = .next (resetBlock { s with pending := rest }) := by
  rw [step, nextMove, h]
  rfl

/-- Settles O2: the step is the reset's, on the state with the move consumed. -/
theorem resetMoveRestartsTheBlock : Obligations.ResetMoveRestartsTheBlock := by
  unfold Obligations.ResetMoveRestartsTheBlock
  intro s rest
  exact step_reset (s := { s with pending := .reset :: rest }) rfl

/-- Without a move of the host the block only stops (R207, R212). -/
theorem step_of_pending_nil {s : State} (h : s.pending = []) : step s = noMove s := by
  rw [step, nextMove, h]

/-- Which of the two stops it is, by the frame condition (R22). -/
theorem noMove_eq (s : State) :
    noMove s = if s.remaining = 0#16 then .fault .awaitingCommand else .fault .stuckInFrame := by
  by_cases hr : s.remaining = 0#16
  · rw [noMove, (inFrame_eq_false s).2 hr, if_pos hr]
    rfl
  · rw [noMove, (inFrame_eq_true s).2 hr, if_neg hr]
    rfl

/-- Settles O4: the block stops, and `remaining` says how. -/
theorem withoutAMoveTheBlockStops : Obligations.WithoutAMoveTheBlockStops := by
  unfold Obligations.WithoutAMoveTheBlockStops
  intro s
  rw [step_of_pending_nil rfl, noMove_eq]

/-! ## An open frame -/

/-- What the table lets through in an open frame, besides `PKTDATA`, only reads (R174). -/
theorem passive_of_allowedIn_true {i : Instr} (h : allowedIn i true = true) (hdata : ∀ x, i ≠ .pktdata x) :
    i.passive = true := by
  cases i with
  | nop => rfl
  | crcinit => exact absurd h Bool.false_ne_true
  | crcbyte x => exact absurd h Bool.false_ne_true
  | crcrd => rfl
  | hdrbld code n => rfl
  | pktstart code n => exact absurd h Bool.false_ne_true
  | pktdata x => exact absurd rfl (hdata x)

/-- In an open frame every command but `PKTDATA` is refused or only reads (R142, R174). -/
theorem afterCommand_registers_of_open {i : Instr} (hdata : ∀ x, i ≠ .pktdata x) {s : State} (h : s.remaining ≠ 0#16) :
    (afterCommand i s).crc = s.crc ∧ (afterCommand i s).remaining = s.remaining ∧
      (afterCommand i s).txStream = s.txStream := by
  cases hallowed : allowedIn i true with
  | false =>
    have hrefused := (exec_eq_next i s).symm.trans (exec_of_open_of_not_allowed hallowed h)
    rw [Host.Outcome.next.inj hrefused]
    exact ⟨respond_crc .., respond_remaining .., respond_txStream ..⟩
  | true => exact afterCommand_registers_of_reading (reading_of_passive (passive_of_allowedIn_true hallowed hdata)) s

/-- Settles O29: an illegal word only responds, a command other than `PKTDATA` keeps the frame, and a transfer is at its port. -/
theorem onlyPktdataOrResetMovesAnOpenFrame : Obligations.OnlyPktdataOrResetMovesAnOpenFrame := by
  unfold Obligations.OnlyPktdataOrResetMovesAnOpenFrame
  intro s m rest hopen hreset hdata
  cases m with
  | command w =>
    cases hw : decode w with
    | error e => exact ⟨_, step_of_decode_error hw s rest, rfl, rfl, rfl⟩
    | ok i =>
      have hi (x : Byte) : i ≠ .pktdata x := fun hx => hdata w x rfl (hx ▸ hw)
      obtain ⟨hcrc, hrem, htx⟩ := afterCommand_registers_of_open hi (s := { s with pending := rest }) hopen
      exact ⟨_, step_of_decode_ok hw s rest, hrem, hcrc, htx⟩
  | takeTx =>
    obtain ⟨waiting, sent, heq⟩ := takeTx_eq_update { s with pending := rest }
    exact ⟨_, (step_takeTx rfl).trans (congrArg _ heq), rfl, rfl, rfl⟩
  | takeResponse =>
    obtain ⟨waiting, taken, heq⟩ := takeResponse_eq_update { s with pending := rest }
    exact ⟨_, (step_takeResponse rfl).trans (congrArg _ heq), rfl, rfl, rfl⟩
  | reset => exact absurd rfl hreset

/-! ## A host that keeps its duties -/

/-- The operands of `PKTSTART` in range, as its check of errors asks for them (R69). -/
theorem operandsInRange_pktstart_iff (code n : Word) :
    (Instr.pktstart code n).operandsInRange = true ↔ code.toNat ≤ 255 ∧ n ≠ 0xFFFF#16 := by
  rw [← codeTooBig_eq_false, ← lengthTooBig_eq_false]
  simp [Instr.operandsInRange]

/-- No data byte owed is no frame open (R21, R22). -/
theorem remaining_eq_zero_of_owed {s : State} (h : (s.remaining.toNat == 0) = true) : s.remaining = 0#16 :=
  BitVec.eq_of_toNat_eq (beq_iff_eq.1 h)

/-- The duty of `CRCINIT` and `CRCBYTE`, which need the frame closed and leave the count as it is (R205). -/
theorem closed_and_disciplined_of_duty {is : List Instr} {s : State}
    (h : (s.remaining.toNat == 0 && hostDisciplined 0 is) = true) :
    s.remaining = 0#16 ∧ hostDisciplined s.remaining.toNat is = true := by
  obtain ⟨howed, hrest⟩ := Bool.and_eq_true_iff.1 h
  exact ⟨remaining_eq_zero_of_owed howed, (beq_iff_eq.1 howed).symm ▸ hrest⟩

/-- The first command of a sequence that keeps the duties meets no error, and the rest keeps them from the state after it: the
host's count of owed bytes goes with `remaining` (R204, R205). -/
theorem disciplined_cons {i : Instr} {is : List Instr} {s : State}
    (h : hostDisciplined s.remaining.toNat (i :: is) = true) :
    commandError i s = none ∧ hostDisciplined (commandEffect i s).remaining.toNat is = true := by
  obtain ⟨hrange, hduty⟩ := Bool.and_eq_true_iff.1 h
  cases i with
  | nop => exact ⟨commandError_eq_none_of_passive rfl hrange s, hduty⟩
  | crcrd => exact ⟨commandError_eq_none_of_passive rfl hrange s, hduty⟩
  | hdrbld code n => exact ⟨commandError_eq_none_of_passive rfl hrange s, hduty⟩
  | crcinit =>
    obtain ⟨hr, hrest⟩ := closed_and_disciplined_of_duty hduty
    exact ⟨(commandError_crcinit_eq_none s).2 hr, hrest⟩
  | crcbyte x =>
    obtain ⟨hr, hrest⟩ := closed_and_disciplined_of_duty hduty
    exact ⟨(commandError_crcbyte_eq_none x s).2 hr, hrest⟩
  | pktstart code n =>
    obtain ⟨howed, hrest⟩ := Bool.and_eq_true_iff.1 hduty
    have hoperands := (operandsInRange_pktstart_iff code n).1 hrange
    exact ⟨(commandError_pktstart_eq_none code n s).2 ⟨remaining_eq_zero_of_owed howed, hoperands⟩, hrest⟩
  | pktdata x =>
    obtain ⟨howed, hrest⟩ := Bool.and_eq_true_iff.1 hduty
    have howes : s.remaining.toNat ≠ 0 := bne_iff_ne.1 howed
    have hopen : s.remaining ≠ 0#16 := by bv_omega
    have hleft : (s.remaining - 1#16).toNat = s.remaining.toNat - 1 := by bv_omega
    refine ⟨(commandError_pktdata_eq_none x s).2 hopen, ?_⟩
    rwa [← hleft] at hrest

/-- Settles O47, by induction on the commands: each is executed, answers `OK`, and leaves the host's count with `remaining`. -/
theorem disciplinedHostIsNeverRefused : Obligations.DisciplinedHostIsNeverRefused := by
  unfold Obligations.DisciplinedHostIsNeverRefused
  intro s is h
  induction is generalizing s with
  | nil => exact ⟨s, [], execAll_nil s, remaining_eq_zero_of_owed h, (List.append_nil _).symm, rfl, by simp⟩
  | cons i is ih =>
    obtain ⟨hnone, hrest⟩ := disciplined_cons h
    obtain ⟨d, hd⟩ := commandEffect_rspStream i s
    obtain ⟨t, rs, hrun, hclosed, hrs, hlen, hok⟩ := ih (commandEffect i s) hrest
    refine ⟨t, ⟨.ok, d⟩ :: rs, ?_, hclosed, ?_, congrArg (· + 1) hlen, List.forall_mem_cons.2 ⟨rfl, hok⟩⟩
    · rw [execAll_cons, afterCommand, hnone, hrun]
    · rw [hrs, hd, List.append_assoc, List.singleton_append]

end Sys2Proof.Machine
end
